-- ==== Sys2Proof/Word.lean ====
section
/-! DEFINITION. The value types of the core (00_scope.md R7, R8): bytes, words, 64-bit counters and the eight-word hash state. -/

namespace Sys2Proof

/-- A byte, an 8-bit unsigned value (R8). -/
abbrev Byte := BitVec 8

/-- A word, a 32-bit unsigned value (R8; WORD_BITS = 32, R7). `+` on words is addition modulo 2^32 (R10, R100). -/
abbrev Word := BitVec 32

/-- A u64, a 64-bit unsigned value (R8). -/
abbrev U64 := BitVec 64

/-- Eight words: the hash state (chaining value) of R21, `h0` being word 0 and `h7` word 7. -/
structure HashState where
  h0 : Word
  h1 : Word
  h2 : Word
  h3 : Word
  h4 : Word
  h5 : Word
  h6 : Word
  h7 : Word
  deriving DecidableEq, Repr, Inhabited

end Sys2Proof
end

