-- ==== Sys2Proof/Machine/Bytes.lean ====
section
/-! DEFINITION. Byte order (20_memory.md R50 to R53) and the byte-indexed reads and writes (00_scope.md R12, 20_memory.md R57). Everything is big-endian. -/

namespace Sys2Proof.Machine

/-- `be32(S, i)`: the word whose big-endian bytes are `S[i..i+4)` (R51). Callers give `|S| ≥ i + 4` (log entry 14). -/
def be32 (bytes : List Byte) (i : Nat) : Word :=
  ((bytes.getD i 0).setWidth 32 <<< 24) ||| ((bytes.getD (i + 1) 0).setWidth 32 <<< 16)
    ||| ((bytes.getD (i + 2) 0).setWidth 32 <<< 8) ||| (bytes.getD (i + 3) 0).setWidth 32

/-- `be32bytes(w)`, the four big-endian bytes of a word (R52). -/
def be32bytes (w : Word) : List Byte :=
  [w.extractLsb' 24 8, w.extractLsb' 16 8, w.extractLsb' 8 8, w.extractLsb' 0 8]

/-- `be64bytes(v)`, the eight big-endian bytes of a u64 (R53). -/
def be64bytes (v : U64) : List Byte :=
  [v.extractLsb' 56 8, v.extractLsb' 48 8, v.extractLsb' 40 8, v.extractLsb' 32 8,
   v.extractLsb' 24 8, v.extractLsb' 16 8, v.extractLsb' 8 8, v.extractLsb' 0 8]

/-- `zeros(n)`, n bytes of 0x00 (R9). -/
def zeros (n : Nat) : List Byte := List.replicate n 0

/-- The words of a hash state in order, word 0 first (R21). -/
def hashWords (hs : HashState) : List Word :=
  [hs.h0, hs.h1, hs.h2, hs.h3, hs.h4, hs.h5, hs.h6, hs.h7]

/-- A hash state as bytes: its words in order, each big-endian (R50 points 2 and 4). The packing of R153 and of the COMPRESS payload and response (R74, R77). -/
def stateBytes (hs : HashState) : List Byte := (hashWords hs).flatMap be32bytes

/-- `MemRead(addr, n)`: the bytes `buf[addr..addr+n)` (00_scope.md R12). Callers keep `addr + n` within the buffer (log entry 14). -/
def memRead {size : Nat} (buf : Vector Byte size) (addr n : Nat) : List Byte := (buf.toList.drop addr).take n

/-- `MemWrite(addr, |v|, v)`: write the bytes `v` to `buf[addr..addr+|v|)`; every other byte stays (00_scope.md R12). Callers keep `addr + |v|` within the buffer (log entry 14). -/
def memWrite {size : Nat} (buf : Vector Byte size) (addr : Nat) (v : List Byte) : Vector Byte size :=
  buf.mapIdx fun i old => if addr ≤ i then v.getD (i - addr) old else old

end Sys2Proof.Machine
end

