-- ==== Sys2Proof/Machine/Operands.lean ====
section
/-! DEFINITION. The operand forms: which payload lengths are legal (30_encoding.md R73) and how the COMPRESS payload is read (R74). -/

namespace Sys2Proof.Machine

/-- `COMPRESS` takes a whole number of blocks, at least one (R73: k ≥ 1). -/
def wholeBlocks (blocks : List Byte) : Bool := decide (64 ≤ blocks.length) && decide (blocks.length % 64 = 0)

/-- The legal length of a `COMPRESS` payload: 32 + 64·k with k ≥ 1 (R73, R78). -/
def compressLength (len : Nat) : Bool := decide (96 ≤ len) && decide ((len - 32) % 64 = 0)

/-- The input state of `COMPRESS`: `Sin[i] = be32(PAYLOAD, 4·i)` for i = 0..7 (R74). -/
def compressState (payload : List Byte) : HashState where
  h0 := be32 payload 0
  h1 := be32 payload 4
  h2 := be32 payload 8
  h3 := be32 payload 12
  h4 := be32 payload 16
  h5 := be32 payload 20
  h6 := be32 payload 24
  h7 := be32 payload 28

/-- The blocks of `COMPRESS`: `PAYLOAD[32..|PAYLOAD|)` (R74). -/
def compressBlockBytes (payload : List Byte) : List Byte := payload.drop 32

end Sys2Proof.Machine
end

