-- ==== Sys2Proof/Syntax.lean ====
section
/-! DEFINITION. Commands as the host sends them and instructions as the core reads them (30_encoding.md R70 to R74): one constructor for each row of the opcode table. -/

namespace Sys2Proof

/-- A command: the 32-bit command word and the framed payload (R70). The payload is taken by value (20_memory.md R60). -/
structure Command where
  cmd     : Word
  payload : List Byte
  deriving DecidableEq, Repr, Inhabited

/-- The five commands with the operands their payload carries (R72 to R74). -/
inductive Instr where
  /-- `INIT`, no operand (41_hasher.md R140). -/
  | init
  /-- `UPDATE`, one chunk of the message (41_hasher.md R141). -/
  | update (data : List Byte)
  /-- `FINALIZE`, no operand (41_hasher.md R152). -/
  | finalize
  /-- `HASH`, the whole message (41_hasher.md R154). -/
  | hash (message : List Byte)
  /-- `COMPRESS`, the input state and the bytes of the blocks (40_compression.md R119). -/
  | compress (sin : HashState) (blocks : List Byte)
  deriving DecidableEq, Repr

end Sys2Proof
end

