-- ==== Sys2Proof/WellFormed.lean ====
section
/-! DEFINITION. Which instructions a payload can carry (30_encoding.md R73): `COMPRESS` needs at least one block and whole blocks only; the other four take every operand their constructor can hold. -/

namespace Sys2Proof

/-- An instruction with an operand the encoding admits (R73). -/
def Instr.wf : Instr → Bool
  | .init => true
  | .update _ => true
  | .finalize => true
  | .hash _ => true
  | .compress _ blocks => Machine.wholeBlocks blocks

end Sys2Proof
end

