-- ==== Sys2Proof/Decode.lean ====
section
/-! DEFINITION. The decoder of 30_encoding.md R78, total on every command word and payload and rejecting by name, then the encoder of R72 to R74 and R119, and the reading of an opcode-table word. -/

namespace Sys2Proof

/-- What decoding answers (R78): `illegal` leads to `E_ILLEGAL`, `badOperand` to `E_OPERAND`. -/
inductive Decoded where
  /-- The command word has RSV ≠ 0 or an OP outside 0x1..0x5 (R75). -/
  | illegal
  /-- A legal command word with a payload length R73 does not allow. -/
  | badOperand
  /-- A command with its operands. -/
  | command (i : Instr)
  deriving DecidableEq, Repr

/-- `OP = CMD[3:0]` (R71). -/
def opField (cmd : Word) : BitVec 4 := cmd.extractLsb' 0 4

/-- `RSV = CMD[31:4]` (R71). -/
def rsvField (cmd : Word) : BitVec 28 := cmd.extractLsb' 4 28

/-- How a legal opcode reads its payload; the other opcodes are illegal (R72 to R75, R78). -/
def decodeOp (op : Nat) (payload : List Byte) : Decoded :=
  match op with
  | 1 => if payload.length = 0 then .command .init else .badOperand
  | 2 => .command (.update payload)
  | 3 => if payload.length = 0 then .command .finalize else .badOperand
  | 4 => .command (.hash payload)
  | 5 =>
    if Machine.compressLength payload.length then
      .command (.compress (Machine.compressState payload) (Machine.compressBlockBytes payload))
    else .badOperand
  | _ => .illegal

/-- `decode(CMD, PAYLOAD)` (R78). It reads no state of the core. -/
def decode (c : Command) : Decoded :=
  if rsvField c.cmd ≠ 0 then .illegal else decodeOp (opField c.cmd).toNat c.payload

/-- The command of an instruction: the command word of R72 and the payload of R73 and R119. -/
def encode : Instr → Command
  | .init => ⟨0x00000001, []⟩
  | .update data => ⟨0x00000002, data⟩
  | .finalize => ⟨0x00000003, []⟩
  | .hash message => ⟨0x00000004, message⟩
  | .compress sin blocks => ⟨0x00000005, Machine.stateBytes sin ++ blocks⟩

/-- The payload that `n` bytes of `w`, lowest byte first, stand for (log entry 9). -/
def tablePayload : Nat → Nat → List Byte
  | 0, _ => []
  | n + 1, w => BitVec.ofNat 8 w :: tablePayload n (w / 256)

/-- The payload of zeros that a table row without payload bits stands for: the shortest legal one, so 96 bytes for `COMPRESS` and none for the others (R73, log entry 9). -/
def zeroOperand (cmd : Word) (payload : List Byte) : List Byte :=
  if cmd = 0x00000005 then payload ++ Machine.zeros (96 - payload.length) else payload

/-- The command an opcode-table word stands for: CMD in bits 31..0, payload bytes from bit 32 up, operand bytes above `nbits` zero (log entry 9). -/
def tableCommand (nbits w : Nat) : Command :=
  let bits := w % 2 ^ nbits
  ⟨BitVec.ofNat 32 bits,
   zeroOperand (BitVec.ofNat 32 bits) (tablePayload ((nbits - 32) / 8) (bits / 4294967296))⟩

/-- The instruction the decoder reads from an opcode-table word. -/
def decodeTableWord (nbits w : Nat) : Option Instr :=
  match decode (tableCommand nbits w) with
  | .command i => some i
  | .illegal => none
  | .badOperand => none

end Sys2Proof
end

