-- ==== Sys2Proof/Config.lean ====
section
/-! DEFINITION. What the spec leaves open: the arbitrary draws of the registers that reset leaves unwritten (10_state.md R38) and the number of instances (00_scope.md R7). None has a body, so no proof can lean on a value. -/

namespace Sys2Proof

/-- Which arbitrary draw: the instance that takes it and how many resets that instance has had. The index is the model's own: instances and resets have draws of their own, and nothing makes two of them equal or different (DESIGN CHOICE, log entries 1, 2). -/
structure DrawIndex where
  core  : Nat
  count : Nat
  deriving DecidableEq, Repr

/-- The same instance's next draw. -/
def DrawIndex.next (d : DrawIndex) : DrawIndex := { d with count := d.count + 1 }

/-- What `H[0..7]` holds after the power-on reset that takes draw `d`: "unwritten", an arbitrary draw of that instance and that reset (R38; DESIGN CHOICE, log entries 1, 2). -/
opaque Config.powerOnHash (d : DrawIndex) : HashState

/-- What `BUF[0..63]` holds after the power-on reset that takes draw `d`: "unwritten", an arbitrary draw of that instance and that reset (R38; DESIGN CHOICE, log entries 1, 2). -/
opaque Config.powerOnBuf (d : DrawIndex) : Vector Byte 64

/-- What `NSTAGED` holds after the power-on reset that takes draw `d`: "unwritten", an arbitrary draw of that instance and that reset (R38; DESIGN CHOICE, log entries 1, 2). -/
opaque Config.powerOnStaged (d : DrawIndex) : BitVec 6

/-- What `TOTAL` holds after the power-on reset that takes draw `d`: "unwritten", an arbitrary draw of that instance and that reset (R38; DESIGN CHOICE, log entries 1, 2). -/
opaque Config.powerOnTotal (d : DrawIndex) : U64

/-- How many instances there are beyond the first: the OPEN parameter of R7 and D19, less one (log entry 15). -/
opaque Config.instancesBeyondFirst : Nat

/-- `numInstances`, at least 1 (00_scope.md R7, 60_exceptions.md R191). -/
def Config.numInstances : Nat := Config.instancesBeyondFirst + 1

/-- 2^61 bytes: the first message length the 64-bit bit-length field cannot hold, MAX_MESSAGE_BYTES + 1 (R7, R142). -/
def Config.lengthLimit : Nat := 2305843009213693952

end Sys2Proof
end

