-- ==== Sys2Proof/Machine/State.lean ====
section
/-! DEFINITION. The state of one core (10_state.md R20 to R38) with its host stream and its responses, the reasons a step can stop, and reset (70_reset_and_hazards.md R210). -/

namespace Sys2Proof.Machine

/-- `PHASE`, the lifecycle register (R25). Value 3 is reserved and never held, so it has no constructor (log entry 10). -/
inductive Phase where
  /-- 0: no context. -/
  | none
  /-- 1: INIT done; UPDATE and FINALIZE accepted. -/
  | absorbing
  /-- 2: FINALIZE done; only INIT re-arms the context. -/
  | finalized
  deriving DecidableEq, Repr, Inhabited

/-- `FAULT`, the sticky fault register: 0 or a code of 60_exceptions.md R181. Codes 6 and 7 are never produced, so they have no constructor (log entry 10). -/
inductive FaultCode where
  /-- 0: no fault. -/
  | ok
  /-- 1, `E_ILLEGAL`: the command word. -/
  | illegal
  /-- 2, `E_OPERAND`: the payload's length. -/
  | operand
  /-- 3, `E_NO_CONTEXT`: UPDATE or FINALIZE before any INIT since reset. -/
  | noContext
  /-- 4, `E_FINALIZED`: UPDATE or FINALIZE after FINALIZE. -/
  | finalized
  /-- 5, `E_LENGTH`: a message of 2^61 bytes or more. -/
  | length
  deriving DecidableEq, Repr, Inhabited

/-- A response: the pair (STATUS, RDATA) (30_encoding.md R77). -/
structure Response where
  status : Word
  rdata  : List Byte
  deriving DecidableEq, Repr, Inhabited

/-- What the host does next (60_exceptions.md R196). -/
inductive HostMove where
  /-- Issue a command (R70). -/
  | command (c : Command)
  /-- Assert reset between two commands (70_reset_and_hazards.md R211). -/
  | reset
  /-- Assert reset while the core runs a command: no defined outcome (R211). -/
  | resetDuring (c : Command)
  /-- Issue a second command before the response to the first, from one host or from two that nothing orders (R59, R196, U12). -/
  | overlap (first second : Command)
  deriving DecidableEq, Repr

/-- Why the machine stops. No command of the opcode table stops it: a fault of the spec is a next state (R184). -/
inductive Fault where
  /-- Raised by `step` at `HostMove.resetDuring`: reset during a command "has no defined outcome in this spec" (70_reset_and_hazards.md R211, U8). Safe: no claim about a next state holds there (log entry 7). -/
  | resetDuringCommand
  deriving DecidableEq, Repr

/-- Why the model refuses. -/
inductive Refusal where
  /-- Raised only by an arm of `exec` for an instruction without a meaning yet; no arm does. Safe. -/
  | notModelled (mnemonic : String)
  /-- Raised by `step` at `HostMove.overlap`: "the model gives no move for a host that breaks the rule of issuing one command at a time" (60_exceptions.md R196, U12 'refuse'). Safe within the model; what such a host does to hardware is outside every claim (log entry 8). -/
  | overlappingCommands
  deriving DecidableEq, Repr

/-- One core. The first six fields are the spec's persistent state (R20); the last three are the model's own (log entries 2, 4, 5). -/
structure State where
  /-- `H[0..7]`, the hash state (R21). -/
  h         : HashState
  /-- `BUF[0..63]`, the staging buffer; only `BUF[0..NSTAGED)` is defined (R22). -/
  buf       : Vector Byte 64
  /-- `NSTAGED`, the staged-byte count (R23). -/
  nstaged   : BitVec 6
  /-- `TOTAL`, the bytes already compressed (R24). -/
  total     : U64
  /-- `PHASE` (R25). -/
  phase     : Phase
  /-- `FAULT` (R26). -/
  fault     : FaultCode
  /-- The host's stream of moves, the next one first (R33, log entry 4). -/
  host      : List HostMove
  /-- Every response given so far, the oldest first (R77, log entry 5). -/
  responses : List Response
  /-- The index of this core's next arbitrary draw at reset (log entry 2). -/
  draws     : DrawIndex
  deriving DecidableEq, Repr

/-- The core right after the power-on reset that takes draw `d`: PHASE and FAULT as R210 says, the unwritten registers at their draw, which is this instance's and this reset's alone (R38, DESIGN CHOICE, log entries 1, 2). -/
def State.powerOn (d : DrawIndex) : State where
  h := Config.powerOnHash d
  buf := Config.powerOnBuf d
  nstaged := Config.powerOnStaged d
  total := Config.powerOnTotal d
  phase := .none
  fault := .ok
  host := []
  responses := []
  draws := d.next

/-- The machine right after reset (R210): it waits for its first command. It is instance 0 at its first reset (log entry 2). -/
def State.reset : State := State.powerOn ⟨0, 0⟩

end Sys2Proof.Machine
end

