-- ==== Sys2Proof/Machine/Flags.lean ====
section
/-! DEFINITION. The core has no flags (10_state.md R34). What a host sees of the status registers is the response status word (30_encoding.md R77); PHASE and FAULT have the bit values of R25 and R181. -/

namespace Sys2Proof.Machine

/-- The 3-bit value of `FAULT` (60_exceptions.md R181, D22). -/
def faultBits : FaultCode → BitVec 3
  | .ok => 0
  | .illegal => 1
  | .operand => 2
  | .noContext => 3
  | .finalized => 4
  | .length => 5

/-- The 2-bit value of `PHASE` (10_state.md R25). -/
def phaseBits : Phase → BitVec 2
  | .none => 0
  | .absorbing => 1
  | .finalized => 2

/-- STATUS: bits 2..0 are FAULT, bits 31..3 are 0 (R77). -/
def statusWord (f : FaultCode) : Word := (faultBits f).setWidth 32

end Sys2Proof.Machine
end

