-- ==== Sys2Proof/Machine/Engine.lean ====
section
/-! DEFINITION. The compression engine as a pure function (40_compression.md R100 to R118): mixing functions, message schedule, rounds, state mixing. Its state W, a..h, T1, T2 is transient (10_state.md R29, R30). -/

namespace Sys2Proof.Machine

/-- `ROTR(x, n) = (x >> n) | (x << (32 − n))` for 1 ≤ n ≤ 31 (R101). -/
def rotr (x : Word) (n : Nat) : Word := (x >>> n) ||| (x <<< (32 - n))

/-- `SHR(x, n) = x >> n`, zeros shifted in (R102). -/
def shr (x : Word) (n : Nat) : Word := x >>> n

/-- `Σ0` (R103). -/
def bigSigma0 (x : Word) : Word := rotr x 2 ^^^ rotr x 13 ^^^ rotr x 22

/-- `Σ1` (R104). -/
def bigSigma1 (x : Word) : Word := rotr x 6 ^^^ rotr x 11 ^^^ rotr x 25

/-- `σ0` (R105). -/
def smallSigma0 (x : Word) : Word := rotr x 7 ^^^ rotr x 18 ^^^ shr x 3

/-- `σ1` (R106). -/
def smallSigma1 (x : Word) : Word := rotr x 17 ^^^ rotr x 19 ^^^ shr x 10

/-- `Ch(e, f, g) = (e & f) ^ (~e & g)` (R107). -/
def ch (e f g : Word) : Word := (e &&& f) ^^^ (~~~e &&& g)

/-- `Maj(a, b, c) = (a & b) ^ (a & c) ^ (b & c)` (R108). -/
def maj (a b c : Word) : Word := (a &&& b) ^^^ (a &&& c) ^^^ (b &&& c)

/-- The recurrence of R110 for the schedule word after the ones in `ws`. -/
def nextScheduleWord (ws : List Word) : Word :=
  smallSigma1 (ws.getD (ws.length - 2) 0) + ws.getD (ws.length - 7) 0
    + smallSigma0 (ws.getD (ws.length - 15) 0) + ws.getD (ws.length - 16) 0

/-- `n` more schedule words, in increasing t (R110). -/
def extendSchedule : Nat → List Word → List Word
  | 0, ws => ws
  | n + 1, ws => extendSchedule n (ws ++ [nextScheduleWord ws])

/-- Schedule words 0 to 15: the block's four-byte big-endian groups, in order (R109). -/
def blockWords (block : List Byte) : List Word := (List.range 16).map fun t => be32 block (4 * t)

/-- The message schedule `W[0..63]` of one 64-byte block (R109, R110), rebuilt for every block (R29). -/
def schedule (block : List Byte) : List Word := extendSchedule 48 (blockWords block)

/-- The eight working variables (10_state.md R30). -/
structure Vars where
  a : Word
  b : Word
  c : Word
  d : Word
  e : Word
  f : Word
  g : Word
  h : Word
  deriving DecidableEq, Repr, Inhabited

/-- Loading the working variables from the chaining value (R111). -/
def loadVars (hin : HashState) : Vars := ⟨hin.h0, hin.h1, hin.h2, hin.h3, hin.h4, hin.h5, hin.h6, hin.h7⟩

/-- The temporary `T1` of a round with constant `k` and schedule word `w` (R112). -/
def temp1 (k w : Word) (v : Vars) : Word := v.h + bigSigma1 v.e + ch v.e v.f v.g + k + w

/-- The temporary `T2` of a round (R112). -/
def temp2 (v : Vars) : Word := bigSigma0 v.a + maj v.a v.b v.c

/-- One round with constant `k` and schedule word `w`: all eight variables at once, from the values before the round (R112). -/
def round (k w : Word) (v : Vars) : Vars :=
  ⟨temp1 k w v + temp2 v, v.a, v.b, v.c, v.d + temp1 k w v, v.e, v.f, v.g⟩

/-- The working variables after rounds 0, 1, ..., t − 1 in order; round t uses `K[t]` and `W[t]` (R113). -/
def varsAfter (ws : List Word) (v : Vars) : Nat → Vars
  | 0 => v
  | t + 1 => round (roundConstant t) (ws.getD t 0) (varsAfter ws v t)

/-- State mixing: `Hout[i] = Hin[i] + v_i` (R114). -/
def mixState (hin : HashState) (v : Vars) : HashState :=
  ⟨hin.h0 + v.a, hin.h1 + v.b, hin.h2 + v.c, hin.h3 + v.d, hin.h4 + v.e, hin.h5 + v.f, hin.h6 + v.g, hin.h7 + v.h⟩

/-- `CompressBlock(Hin, B)`: schedule, 64 rounds, state mixing (R115). Total and pure (R118). -/
def compressBlock (hin : HashState) (block : List Byte) : HashState :=
  mixState hin (varsAfter (schedule block) (loadVars hin) 64)

/-- The first `k` blocks of `bytes` in order, each from the state the one before it gave (R116). -/
def compressChain : Nat → HashState → List Byte → HashState
  | 0, h, _ => h
  | k + 1, h, bytes => compressChain k (compressBlock h (bytes.take 64)) (bytes.drop 64)

/-- `CompressBlocks(Hin, S)` for |S| = 64·k; k = 0 is the identity (R116, C2). -/
def compressBlocks (hin : HashState) (bytes : List Byte) : HashState := compressChain (bytes.length / 64) hin bytes

end Sys2Proof.Machine
end

