-- ==== Sys2Proof/Machine/Padding.lean ====
section
/-! DEFINITION. The padding (41_hasher.md R146 to R151) and the digest (R153). -/

namespace Sys2Proof.Machine

/-- The number of padding blocks for a tail of `n` bytes: 1 when n ≤ 55, else 2 (R147). -/
def padBlocks (n : Nat) : Nat := if n ≤ 55 then 1 else 2

/-- `zext_64(bytes · 8)`, the bit length of a message of `bytes` bytes; exact below 2^61 bytes (R146, log entry 11). -/
def bitLength (bytes : Nat) : U64 := BitVec.ofNat 64 (bytes * 8)

/-- `Pad(tail, bitlen)`: the tail, 0x80, zeros, the 8-byte big-endian bit length (R148, R151). -/
def pad (tail : List Byte) (bitlen : U64) : List Byte :=
  tail ++ [0x80] ++ zeros (64 * padBlocks tail.length - tail.length - 9) ++ be64bytes bitlen

/-- `Digest(Hs)`: the eight final words as four big-endian bytes each, in order (R153). -/
def digest (hs : HashState) : List Byte := stateBytes hs

end Sys2Proof.Machine
end

