-- ==== Sys2Proof/Machine/Ops.lean ====
section
/-! DEFINITION. The operations the meanings share: answering a command, fault entry and the sticky fault (60_exceptions.md R184, R185), reset, which alone clears a fault (R186), and the registers read and written by the hasher. -/

namespace Sys2Proof.Machine

/-- What a step or a meaning answers. -/
abbrev Result := Host.Outcome State Fault Refusal

/-- `respond(status, data)`: the command's one response (00_scope.md R12, 30_encoding.md R77). -/
def respond (f : FaultCode) (data : List Byte) (s : State) : State :=
  { s with responses := s.responses ++ [⟨statusWord f, data⟩] }

/-- Fault entry, `raise Fault(code)`: FAULT takes the code and nothing else is written (R184). -/
def raiseFault (code : FaultCode) (s : State) : Result := .next (respond code [] { s with fault := code })

/-- While FAULT ≠ 0 every command answers `respond(FAULT, [])` and changes nothing (R185). -/
def stickyAnswer (s : State) : Result := .next (respond s.fault [] s)

/-- The first line of every command's pseudocode: look at FAULT before anything else (R183 point 1, R185). -/
def unlessFaulted (s : State) (effect : Result) : Result := if s.fault = .ok then effect else stickyAnswer s

/-- The phase checks of UPDATE and FINALIZE (R183 points 4 and 5). -/
def inContext (s : State) (effect : Result) : Result :=
  match s.phase with
  | .none => raiseFault .noContext s
  | .finalized => raiseFault .finalized s
  | .absorbing => effect

/-- A command that succeeds ends with `respond(0, data)`. -/
def succeed (data : List Byte) (s : State) : Result := .next (respond .ok data s)

/-- Power-on reset (70_reset_and_hazards.md R210): the only event that clears FAULT (60_exceptions.md R186). The host gets nothing back (R196), so its stream and the responses it already has stay. The unwritten registers take the core's next draw (log entries 1, 2). -/
def takeReset (s : State) : State :=
  { State.powerOn s.draws with host := s.host, responses := s.responses }

/-- `TOTAL + NSTAGED`, the length of the message so far, as an exact number (R142, R146). -/
def messageLength (s : State) : Nat := s.total.toNat + s.nstaged.toNat

/-- `BUF[0..NSTAGED)`, the defined bytes of the staging buffer (R22). -/
def stagedBytes (s : State) : List Byte := memRead s.buf 0 s.nstaged.toNat

/-- The value of `BUF[i]`: the byte staged there, and none at and beyond NSTAGED, where BUF holds no defined value (R22, R36, 93_implementation_defined.md U6). -/
def bufValue (s : State) (i : Fin 64) : Option Byte := if i.val < s.nstaged.toNat then some s.buf[i] else none

/-- Let the bytes `BUF[NSTAGED..64)` take an arbitrary draw: all of BUF is the draw, but for the staged bytes (R36, U6). -/
def redrawBuf (draw : Vector Byte 64) (s : State) : State := { s with buf := memWrite draw 0 (stagedBytes s) }

/-- Write the bytes `v` to BUF from index `addr` (R57). -/
def writeBuf (addr : Nat) (v : List Byte) (s : State) : State := { s with buf := memWrite s.buf addr v }

/-- Set NSTAGED (R23). -/
def setStaged (n : Nat) (s : State) : State := { s with nstaged := BitVec.ofNat 6 n }

/-- Compress the blocks of `bytes` into H and count them in TOTAL (R24, R141 steps c and d). -/
def compressInto (bytes : List Byte) (s : State) : State :=
  { s with h := compressBlocks s.h bytes, total := s.total + BitVec.ofNat 64 bytes.length }

end Sys2Proof.Machine
end

