-- ==== Sys2Proof/Machine/Compression.lean ====
section
/-! DEFINITION. The meaning of the COMPRESS command (40_compression.md R119). -/

namespace Sys2Proof.Machine

/-- `COMPRESS` (R119): the engine as a pure function, accepted in every phase; the context is neither read nor written. The length is checked here too, so that an instruction no payload can carry raises `E_OPERAND` (log entry 17). -/
def execCompress (sin : HashState) (blocks : List Byte) (s : State) : Result :=
  unlessFaulted s (
    if wholeBlocks blocks then succeed (stateBytes (compressBlocks sin blocks)) s else raiseFault .operand s)

end Sys2Proof.Machine
end

