-- ==== Sys2Proof/Machine/Hasher.lean ====
section
/-! DEFINITION. The meanings of the hasher commands INIT, UPDATE, FINALIZE and HASH (41_hasher.md R140 to R155). -/

namespace Sys2Proof.Machine

/-- The registers after INIT. BUF is not written, its old bytes stay, and none of them is defined, because NSTAGED = 0 (R140, 10_state.md R38). -/
def startContext (s : State) : State := { s with h := iv, nstaged := 0, total := 0, phase := .absorbing }

/-- `INIT` (R140), accepted in every phase. Its operand check is the decoder's (30_encoding.md R78, log entry 17). -/
def execInit (s : State) : Result := unlessFaulted s (succeed [] (startContext s))

/-- Steps c, d and e of UPDATE, once the buffer is full: compress it, compress the whole blocks of the rest `R` of the payload, stage the new tail (R141). -/
def absorbFull (rest : List Byte) (s : State) : State :=
  let whole := 64 * (rest.length / 64)
  let tail := rest.drop whole
  setStaged tail.length (writeBuf 0 tail (compressInto (rest.take whole) (compressInto (memRead s.buf 0 64) s)))

/-- The effect of UPDATE on the registers (R141): step a copies what fits, step b returns if the buffer is not full. -/
def absorb (data : List Byte) (s : State) : State :=
  let n := s.nstaged.toNat
  let fits := min data.length (64 - n)
  let staged := writeBuf n (data.take fits) s
  if n + data.length < 64 then setStaged (n + data.length) staged else absorbFull (data.drop fits) staged

/-- `UPDATE` (R141) with the length limit of R142. -/
def execUpdate (data : List Byte) (s : State) : Result :=
  unlessFaulted s (inContext s (
    if Config.lengthLimit ≤ messageLength s + data.length then raiseFault .length s
    else succeed [] (absorb data s)))

/-- The final chaining value: the padding blocks compressed into H (R152 steps a to d). -/
def finalHash (s : State) : HashState := compressBlocks s.h (pad (stagedBytes s) (bitLength (messageLength s)))

/-- The registers after FINALIZE: TOTAL, NSTAGED and BUF are unchanged (R152). -/
def finishContext (s : State) : State := { s with h := finalHash s, phase := .finalized }

/-- `FINALIZE` (R152). Its operand check is the decoder's (30_encoding.md R78, log entry 17). -/
def execFinalize (s : State) : Result :=
  unlessFaulted s (inContext s (succeed (digest (finalHash s)) (finishContext s)))

/-- The hash of a whole message in a private context (R154). -/
def hashMessage (message : List Byte) : HashState :=
  let whole := 64 * (message.length / 64)
  compressBlocks (compressBlocks iv (message.take whole)) (pad (message.drop whole) (bitLength message.length))

/-- `HASH` (R154): no register of the core's own context is read or written (R155). -/
def execHash (message : List Byte) (s : State) : Result :=
  unlessFaulted s (
    if Config.lengthLimit ≤ message.length then raiseFault .length s
    else succeed (digest (hashMessage message)) s)

end Sys2Proof.Machine
end

