-- ==== Sys2Proof/Machine/Dispatch.lean ====
section
/-! DEFINITION. One arm per instruction of the opcode table. -/

namespace Sys2Proof.Machine

def exec (i : Instr) (s : State) : Host.Outcome State Fault Refusal :=
  match i with
  | .init => Sys2Proof.Machine.execInit s
  | .update data => Sys2Proof.Machine.execUpdate data s
  | .finalize => Sys2Proof.Machine.execFinalize s
  | .hash message => Sys2Proof.Machine.execHash message s
  | .compress sin blocks => Sys2Proof.Machine.execCompress sin blocks s

end Sys2Proof.Machine
end

