-- ==== Sys2Proof/Machine/Accept.lean ====
section
/-! DEFINITION. Accepting a command in the order of checks of 60_exceptions.md R183, and answering each move of the host (R196). -/

namespace Sys2Proof.Machine

/-- What a decoded command does (30_encoding.md R78): a bad command word or payload raises its fault, anything else runs. -/
def runDecoded (d : Decoded) (s : State) : Result :=
  match d with
  | .illegal => raiseFault .illegal s
  | .badOperand => raiseFault .operand s
  | .command i => exec i s

/-- Accept one command: while FAULT ≠ 0 nothing is decoded; then the command word, the payload's shape and the command's own checks, in that order (R183). -/
def accept (c : Command) (s : State) : Result := unlessFaulted s (runDecoded (decode c) s)

/-- Answer one move of the host (R196). -/
def takeMove (move : HostMove) (s : State) : Result :=
  match move with
  | .command c => accept c s
  | .reset => .next (takeReset s)
  | .resetDuring _ => .fault .resetDuringCommand
  | .overlap _ _ => .refused .overlappingCommands

end Sys2Proof.Machine
end

