-- ==== Sys2Proof/Machine/Step.lean ====
section
/-! DEFINITION. One step of the core: take the host's next move (10_state.md R33, 20_memory.md R59). -/

namespace Sys2Proof.Machine

/-- One step: the host's next move is taken from its stream and answered; with no move the core is idle and holds its state (60_exceptions.md R195, log entry 6). -/
def step (s : State) : Host.Outcome State Fault Refusal :=
  match s.host with
  | [] => .next s
  | move :: rest => takeMove move { s with host := rest }

/-- `s` with an opcode-table word as the host's next command, so that `step` runs exactly it (log entries 4, 9). -/
def State.withFetchWord (s : State) (nbits w : Nat) : State :=
  { s with host := .command (tableCommand nbits w) :: s.host }

end Sys2Proof.Machine
end

