-- ==== Sys2Proof/Machine/Assembler.lean ====
section
/-! DEFINITION. The spec's textual command syntax (30_encoding.md R79), as syntax trees: what a line assembles to. Reading the characters of a line is not modelled (log entry 18). -/

namespace Sys2Proof.Machine

/-- The forms of `<bytes>` in R79. -/
inductive BytesForm where
  /-- `"text"`: the ASCII bytes, no terminator. -/
  | text (chars : List Char)
  /-- `x"hex"`: the bytes written as hex digit pairs. -/
  | hex (bytes : List Byte)
  /-- `"c"*n` or `x"hh"*n`: n copies. -/
  | copies (b : Byte) (n : Nat)
  /-- `seq(a, b)`: the bytes a, a+1, ..., b − 1. -/
  | seq (a b : Nat)
  /-- `""`: the empty sequence. -/
  | empty
  /-- Two forms joined with `‖`. -/
  | joined (x y : BytesForm)
  deriving DecidableEq, Repr

/-- The bytes a form stands for (R79). R79 speaks of ASCII text and of bytes only: a character outside ASCII and a number above 255 in `seq` give their low 8 bits, and `seq(a, b)` with b below a gives no bytes (DESIGN CHOICE, log entry 18). -/
def formBytes : BytesForm → List Byte
  | .text chars => chars.map fun c => BitVec.ofNat 8 c.toNat
  | .hex bytes => bytes
  | .copies b n => List.replicate n b
  | .seq a b => (List.range (b - a)).map fun i => BitVec.ofNat 8 (a + i)
  | .empty => []
  | .joined x y => formBytes x ++ formBytes y

/-- One line of R79, mnemonic first. -/
inductive AsmLine where
  | init
  | update (bytes : BytesForm)
  | finalize
  | hash (bytes : BytesForm)
  | compress (words : HashState) (bytes : BytesForm)
  deriving DecidableEq, Repr

/-- The command a line assembles to: the command word of R72 and the payload bytes; for COMPRESS the eight words big-endian, then the bytes (R79). -/
def assemble : AsmLine → Command
  | .init => ⟨0x00000001, []⟩
  | .update bytes => ⟨0x00000002, formBytes bytes⟩
  | .finalize => ⟨0x00000003, []⟩
  | .hash bytes => ⟨0x00000004, formBytes bytes⟩
  | .compress words bytes => ⟨0x00000005, stateBytes words ++ formBytes bytes⟩

end Sys2Proof.Machine
end

