-- ==== Sys2Proof/Machine/Drawn.lean ====
section
/-! DEFINITION. The form of the machine that 10_state.md R36 and 93_implementation_defined.md U6 describe: the bytes of BUF without a defined value take an arbitrary draw before every step. `step` itself keeps the bytes last stored there, as the rules that write BUF leave them (log entry 3); that the two forms cannot be told apart is an obligation. -/

namespace Sys2Proof.Machine

/-- One step, before which `BUF[NSTAGED..64)` takes the arbitrary values of `draw` (R36). -/
def stepDrawn (draw : Vector Byte 64) (s : State) : Result := step (redrawBuf draw s)

/-- A run with one arbitrary draw before each of its steps (R36). -/
def runDrawn : List (Vector Byte 64) → State → Result
  | [], s => .next s
  | draw :: draws, s =>
    match stepDrawn draw s with
    | .next t => runDrawn draws t
    | .fault r => .fault r
    | .refused r => .refused r

end Sys2Proof.Machine
end

