-- ==== Sys2Proof/Machine/PaddingFsm.lean ====
section
/-! DEFINITION. The padding state machine of 41_hasher.md R149, state by state, over its own PADBUF (10_state.md R31, C1). FINALIZE and HASH use the function `pad` instead, which R149 allows; that the two agree is an obligation. -/

namespace Sys2Proof.Machine

/-- The states of the padding machine (R149); `done` is where the command has ended. -/
inductive PadPhase where
  | copy
  | mark
  | zero
  | len
  | blk0
  | blk1
  | out
  | done
  deriving DecidableEq, Repr

/-- The transient state of one padding run: the state, PADBUF, the number of blocks, the inputs and what comes out. -/
structure PadMachine where
  phase  : PadPhase
  padbuf : Vector Byte 128
  blocks : Nat
  tail   : List Byte
  bitlen : U64
  h      : HashState
  answer : List Byte
  deriving DecidableEq, Repr

/-- The machine before `PF_COPY`; PADBUF holds `junk`, since nothing has written it. -/
def padStart (junk : Vector Byte 128) (h : HashState) (tail : List Byte) (bitlen : U64) : PadMachine :=
  { phase := .copy, padbuf := junk, blocks := 0, tail := tail, bitlen := bitlen, h := h, answer := [] }

/-- One row of the table in R149: the action of the current state and its successor. -/
def padStep (p : PadMachine) : PadMachine :=
  match p.phase with
  | .copy => { p with padbuf := memWrite p.padbuf 0 p.tail, blocks := padBlocks p.tail.length, phase := .mark }
  | .mark => { p with padbuf := memWrite p.padbuf p.tail.length [0x80], phase := .zero }
  | .zero => { p with padbuf := memWrite p.padbuf (p.tail.length + 1) (zeros (64 * p.blocks - 8 - (p.tail.length + 1))), phase := .len }
  | .len => { p with padbuf := memWrite p.padbuf (64 * p.blocks - 8) (be64bytes p.bitlen), phase := .blk0 }
  | .blk0 => { p with h := compressBlock p.h (memRead p.padbuf 0 64), phase := if p.blocks = 2 then .blk1 else .out }
  | .blk1 => { p with h := compressBlock p.h (memRead p.padbuf 64 64), phase := .out }
  | .out => { p with answer := digest p.h, phase := .done }
  | .done => p

/-- `k` steps of the padding machine. -/
def padRun : Nat → PadMachine → PadMachine
  | 0, p => p
  | k + 1, p => padRun k (padStep p)

end Sys2Proof.Machine
end

