-- ==== Sys2Proof/Machine/System.lean ====
section
/-! DEFINITION. Several instances side by side (00_scope.md R7, 20_memory.md R65, 60_exceptions.md R191): each with its own registers and host stream, sharing only the tables K and IV. -/

namespace Sys2Proof.Machine

/-- A system of `numInstances` cores (R191). -/
structure System where
  cores : Vector State Config.numInstances
  deriving DecidableEq, Repr

/-- The system right after reset: every instance starts from reset (R191, 70_reset_and_hazards.md R210), each with draws of its own (log entry 2). -/
def System.reset : System := ⟨Vector.ofFn fun k => State.powerOn ⟨k.val, 0⟩⟩

/-- What a step of a system answers. -/
abbrev SystemResult := Host.Outcome System Fault Refusal

/-- One step of instance `k`; which instance moves next is the environment's choice (R65: any interleaving). Where that instance stops, on a reset inside a command or on overlapping commands, the answer for the system is that stop; the spec does not say what the other instances then do (DESIGN CHOICE, log entry 20). -/
def stepInstance (k : Fin Config.numInstances) (y : System) : SystemResult :=
  match step y.cores[k] with
  | .next t => .next { cores := y.cores.set k t }
  | .fault r => .fault r
  | .refused r => .refused r

/-- A run of a system under one interleaving: the instances move in the order of `order` (R65). The first stop of an instance ends the run of all of them (DESIGN CHOICE, log entry 20). -/
def runInterleaving : List (Fin Config.numInstances) → System → SystemResult
  | [], y => .next y
  | k :: order, y =>
    match stepInstance k y with
    | .next z => runInterleaving order z
    | .fault r => .fault r
    | .refused r => .refused r

end Sys2Proof.Machine
end

