-- ==== Sys2Proof/Machine/Window.lean ====
section
/-! DEFINITION. The other form of the engine that 40_compression.md R117 allows: the schedule kept as a 16-word sliding window. The model's own form is `compressBlock`; that the two agree is an obligation. -/

namespace Sys2Proof.Machine

/-- Slide the window `W[t..t+16)` on by one word: `W[t+16]` by the recurrence of R110. -/
def slideWindow (ws : List Word) : List Word :=
  ws.drop 1 ++ [smallSigma1 (ws.getD 14 0) + ws.getD 9 0 + smallSigma0 (ws.getD 1 0) + ws.getD 0 0]

/-- `n` rounds from round `t` on, the window's first word being `W[t]` (R112, R113, R117). -/
def windowRounds : Nat → Nat → List Word → Vars → Vars
  | 0, _, _, v => v
  | n + 1, t, ws, v => windowRounds n (t + 1) (slideWindow ws) (round (roundConstant t) (ws.getD 0 0) v)

/-- `CompressBlock` with a 16-word window in place of the 64-word schedule (R117). -/
def compressBlockWindow (hin : HashState) (block : List Byte) : HashState :=
  mixState hin (windowRounds 64 0 (blockWords block) (loadVars hin))

end Sys2Proof.Machine
end

