-- ==== Sys2Proof/Machine/Work.lean ====
section
/-! DEFINITION. The work of a command: the byte sequences it hands to the engine and the number of CompressBlock calls they cost (70_reset_and_hazards.md R217). -/

namespace Sys2Proof.Machine

/-- The FAULT register a command leaves, by running it. -/
def faultAfter (i : Instr) (s : State) : FaultCode :=
  match exec i s with
  | .next t => t.fault
  | .fault _ => s.fault
  | .refused _ => s.fault

/-- What the effect of a command hands to `CompressBlocks`, call by call in order. No meaning reads this list (log entry 19); the statement EngineCallsPerCommand binds it to what the meanings compute. -/
def engineInputs (i : Instr) (s : State) : List (List Byte) :=
  match i with
  | .init => []
  | .update data =>
    let fits := min data.length (64 - s.nstaged.toNat)
    let rest := data.drop fits
    if s.nstaged.toNat + data.length < 64 then []
    else [memRead (memWrite s.buf s.nstaged.toNat (data.take fits)) 0 64, rest.take (64 * (rest.length / 64))]
  | .finalize => [pad (stagedBytes s) (bitLength (messageLength s))]
  | .hash message =>
    let whole := 64 * (message.length / 64)
    [message.take whole, pad (message.drop whole) (bitLength message.length)]
  | .compress _ blocks => [blocks]

/-- How many times a command calls CompressBlock; a faulting command calls it never (R217). -/
def engineCalls (i : Instr) (s : State) : Nat :=
  if faultAfter i s = .ok then ((engineInputs i s).map fun bytes => bytes.length / 64).sum else 0

end Sys2Proof.Machine
end

