-- ==== Sys2Proof/Safety.lean ====
section
/-! DEFINITION. The terms claims are stated in: runs, the invariant of 10_state.md R32, the order of checks of 60_exceptions.md R183, the message a context has absorbed (41_hasher.md R144), the padded message (R150), the lifecycle grammar (70_reset_and_hazards.md R213) and what the host can tell apart (10_state.md R35, R36). -/

namespace Sys2Proof.Safety

open Sys2Proof Sys2Proof.Machine

/-- `k` steps of the core, stopping at the first stop: the host's `Host.Core.run` of `Sys2Proof.core`. -/
def runSteps : Nat → State → Result
  | 0, s => .next s
  | k + 1, s =>
    match step s with
    | .next t => runSteps k t
    | .fault r => .fault r
    | .refused r => .refused r

/-! ## The context registers -/

/-- The invariant of R32: while PHASE = ABSORBING, NSTAGED ≤ 63, TOTAL is a multiple of 64 and the message stays below 2^61 bytes. -/
def LifecycleInv (s : State) : Prop :=
  s.phase = .absorbing → s.nstaged.toNat ≤ 63 ∧ s.total.toNat % 64 = 0 ∧ messageLength s ≤ 2 ^ 61 - 1

/-- The context registers H, BUF, NSTAGED, TOTAL and PHASE are the same. -/
def SameContext (s t : State) : Prop :=
  t.h = s.h ∧ t.buf = s.buf ∧ t.nstaged = s.nstaged ∧ t.total = s.total ∧ t.phase = s.phase

/-- The core is ready to absorb: no fault and a context open (R213). -/
def Absorbing (s : State) : Prop := s.fault = .ok ∧ s.phase = .absorbing

/-- The context holds the state R144 gives for the message `m`. -/
def Absorbed (m : List Byte) (s : State) : Prop :=
  Absorbing s ∧ s.total.toNat = 64 * (m.length / 64) ∧ s.nstaged.toNat = m.length % 64 ∧
    stagedBytes s = m.drop s.total.toNat ∧ s.h = compressBlocks iv (m.take s.total.toNat)

/-- `zeros` of the padding of a message of `n` bytes: z = (55 − n) mod 64 (R150). -/
def padZeros (n : Nat) : Nat := (119 - n % 64) % 64

/-- The padded message `M ‖ 0x80 ‖ zeros(z) ‖ be64bytes(8·|M|)` (R150). -/
def paddedMessage (m : List Byte) : List Byte :=
  m ++ [0x80] ++ zeros (padZeros m.length) ++ be64bytes (BitVec.ofNat 64 (8 * m.length))

/-- SHA-256 of a message: the digest of the chaining value after the padded message (R1, R150, R153). -/
def sha256 (m : List Byte) : List Byte := digest (compressBlocks iv (paddedMessage m))

/-! ## Commands and their faults -/

/-- OP is one of 0x1..0x5 and RSV is 0: a legal command word (R72). -/
def LegalWord (cmd : Word) : Prop :=
  cmd = 0x00000001 ∨ cmd = 0x00000002 ∨ cmd = 0x00000003 ∨ cmd = 0x00000004 ∨ cmd = 0x00000005

/-- The payload length is legal for the command word (R73). -/
def LegalLength (cmd : Word) (len : Nat) : Prop :=
  (cmd = 0x00000001 ∨ cmd = 0x00000003 → len = 0) ∧ (cmd = 0x00000005 → ∃ k, 1 ≤ k ∧ len = 32 + 64 * k)

/-- UPDATE and FINALIZE, the commands that need an open context (R25, R182). -/
def NeedsContext (cmd : Word) : Prop := cmd = 0x00000002 ∨ cmd = 0x00000003

/-- The message would reach 2^61 bytes: UPDATE from TOTAL + NSTAGED + |PAYLOAD|, HASH from |PAYLOAD| (R142, R154). -/
def TooLong (c : Command) (s : State) : Prop :=
  (c.cmd = 0x00000002 ∧ 2 ^ 61 ≤ s.total.toNat + s.nstaged.toNat + c.payload.length) ∨
    (c.cmd = 0x00000004 ∧ 2 ^ 61 ≤ c.payload.length)

/-- `f` is the fault code the list of checks of R183 gives for a command when FAULT = 0: the first check that holds, or none (points 2 to 7). -/
def FirstFault (c : Command) (s : State) (f : FaultCode) : Prop :=
  (f = .illegal ∧ ¬ LegalWord c.cmd) ∨
  (f = .operand ∧ LegalWord c.cmd ∧ ¬ LegalLength c.cmd c.payload.length) ∨
  (f = .noContext ∧ LegalWord c.cmd ∧ LegalLength c.cmd c.payload.length ∧ NeedsContext c.cmd ∧ s.phase = .none) ∨
  (f = .finalized ∧ LegalWord c.cmd ∧ LegalLength c.cmd c.payload.length ∧ NeedsContext c.cmd ∧ s.phase = .finalized) ∨
  (f = .length ∧ LegalWord c.cmd ∧ LegalLength c.cmd c.payload.length ∧ (NeedsContext c.cmd → s.phase = .absorbing) ∧
    TooLong c s) ∨
  (f = .ok ∧ LegalWord c.cmd ∧ LegalLength c.cmd c.payload.length ∧ (NeedsContext c.cmd → s.phase = .absorbing) ∧
    ¬ TooLong c s)

/-! ## Host moves and the lifecycle grammar of R213 -/

/-- The host's move that issues an instruction. -/
def issue (i : Instr) : HostMove := .command (encode i)

/-- The UPDATE commands of a list of chunks, in order. -/
def updateMoves (chunks : List (List Byte)) : List HostMove := chunks.map fun d => issue (.update d)

/-- `other ::= HASH | COMPRESS`, the latter with a payload R73 allows. -/
def OtherMove (m : HostMove) : Prop :=
  (∃ message, m = issue (.hash message)) ∨ ∃ sin blocks, m = issue (.compress sin blocks) ∧ (Instr.compress sin blocks).wf = true

/-- `body ::= ( UPDATE | other )*`. -/
def BodyMoves (ms : List HostMove) : Prop := ∀ m ∈ ms, (∃ d, m = issue (.update d)) ∨ OtherMove m

/-- `message ::= INIT body FINALIZE | INIT body`. -/
def MessageMoves (ms : List HostMove) : Prop :=
  ∃ body, BodyMoves body ∧ (ms = issue .init :: (body ++ [issue .finalize]) ∨ ms = issue .init :: body)

/-- `( message other* )*`. -/
inductive MessagesMoves : List HostMove → Prop where
  | nil : MessagesMoves []
  | cons {message others rest : List HostMove} :
    MessageMoves message → (∀ m ∈ others, OtherMove m) → MessagesMoves rest →
    MessagesMoves (message ++ (others ++ rest))

/-- `session ::= reset other* ( message other* )*`. -/
def SessionMoves (ms : List HostMove) : Prop :=
  ∃ others rest, ms = .reset :: (others ++ rest) ∧ (∀ m ∈ others, OtherMove m) ∧ MessagesMoves rest

/-! ## What the host can tell apart -/

/-- Two cores the host cannot tell apart: all they show is the same, and while a context is open so are H, NSTAGED, TOTAL and the defined bytes `BUF[0..NSTAGED)`. Bytes at and beyond NSTAGED, every context register in the phases NONE and FINALIZED, and the draws still to come (log entry 2), may differ (10_state.md R36, R38). -/
def Indistinguishable (s t : State) : Prop :=
  s.phase = t.phase ∧ s.fault = t.fault ∧ s.host = t.host ∧ s.responses = t.responses ∧
    (s.phase = .absorbing →
      s.h = t.h ∧ s.nstaged = t.nstaged ∧ s.total = t.total ∧ stagedBytes s = stagedBytes t)

/-- Two answers of the same kind, whose next states stand in `rel`. -/
def SameAnswer (rel : State → State → Prop) (r q : Result) : Prop :=
  match r, q with
  | .next s, .next t => rel s t
  | .fault a, .fault b => a = b
  | .refused a, .refused b => a = b
  | _, _ => False

end Sys2Proof.Safety
end

