-- ==== Sys2Proof/Certificates/Slice0/Obligations.lean ====
section
/-! DEFINITION. The statements for the provers, from the numbered rules of spec/. A command the host issues is the head of the model's field `host`, and a response is one more entry of its field `responses` (log entries 4 and 5): this is how the statements write the command of R70 and the response of R77. -/

open Sys2Proof Sys2Proof.Machine Sys2Proof.Safety

/-! ## Encoding and decoding (30_encoding.md) -/

/-- Decoding the encoding of a well-formed instruction gives it back, with every operand (R72 to R74, R78). -/
def Obligations.DecodeOfEncode : Prop :=
  ∀ i : Instr, i.wf = true → decode (encode i) = .command i

/-- Where decoding gives an instruction, that instruction is well formed and its encoding is the command decoded: no two commands share a meaning (R78). -/
def Obligations.EncodeOfDecode : Prop :=
  ∀ (c : Command) (i : Instr), decode c = .command i → encode i = c ∧ i.wf = true

/-- Command words written out from the opcode map of R72, and reserved ones, decode as R72 and R75 say. -/
def Obligations.OpcodeMapWords : Prop :=
  decode ⟨0x00000001, []⟩ = .command .init ∧
  decode ⟨0x00000002, [0x61, 0x62, 0x63]⟩ = .command (.update [0x61, 0x62, 0x63]) ∧
  decode ⟨0x00000003, []⟩ = .command .finalize ∧
  decode ⟨0x00000004, [0x78]⟩ = .command (.hash [0x78]) ∧
  decode ⟨0x00000005, zeros 96⟩ = .command (.compress ⟨0, 0, 0, 0, 0, 0, 0, 0⟩ (zeros 64)) ∧
  decode ⟨0x00000000, []⟩ = .illegal ∧ decode ⟨0x00000006, []⟩ = .illegal ∧
  decode ⟨0x00000011, []⟩ = .illegal ∧ decode ⟨0x80000001, []⟩ = .illegal

/-- R75: a command word is illegal exactly when OP is 0x0 or 0x6..0xF or RSV is not 0, and an illegal command raises E_ILLEGAL whatever its payload, never acting as a no-op. -/
def Obligations.IllegalWordsFault : Prop :=
  (∀ c : Command, decode c = .illegal ↔ (c.cmd.toNat % 16 = 0 ∨ 6 ≤ c.cmd.toNat % 16 ∨ c.cmd.toNat / 16 ≠ 0)) ∧
  ∀ (s : State) (c : Command) (rest : List HostMove), s.fault = .ok → s.host = .command c :: rest →
    decode c = .illegal →
    step s = .next { s with host := rest, fault := .illegal, responses := s.responses ++ [⟨1, []⟩] }

/-- R73: with FAULT = 0, a legal command word with a payload of a length that is not legal for it raises E_OPERAND; with a legal length it is decoded as a command. -/
def Obligations.PayloadLengthsDecide : Prop :=
  ∀ c : Command, LegalWord c.cmd →
    (LegalLength c.cmd c.payload.length → ∃ i, decode c = .command i) ∧
    (¬ LegalLength c.cmd c.payload.length →
      ∀ (s : State) (rest : List HostMove), s.fault = .ok → s.host = .command c :: rest →
        step s = .next { s with host := rest, fault := .operand, responses := s.responses ++ [⟨2, []⟩] })

/-- R74: the COMPRESS payload is eight big-endian words of input state, then the blocks in order. -/
def Obligations.CompressPayloadIsRead : Prop :=
  ∀ (payload : List Byte) (k : Nat), 1 ≤ k → payload.length = 32 + 64 * k →
    ∃ sin blocks, decode ⟨0x00000005, payload⟩ = .command (.compress sin blocks) ∧
      hashWords sin = (List.range 8).map (fun i => be32 payload (4 * i)) ∧
      blocks.length = 64 * k ∧
      ∀ j < k, (blocks.drop (64 * j)).take 64 = (payload.drop (32 + 64 * j)).take 64

/-- R79: a line, as a syntax tree, assembles to the command word of R72 and its bytes (characters outside ASCII and numbers above 255 give their low 8 bits, and `seq(a, b)` with b below a gives no bytes: the model's choice, log entry 18); for every line with a legal payload that command decodes to the instruction the mnemonic names. -/
def Obligations.AssembledLinesDecode : Prop :=
  decode (assemble .init) = .command .init ∧ decode (assemble .finalize) = .command .finalize ∧
  (∀ b, decode (assemble (.update b)) = .command (.update (formBytes b))) ∧
  (∀ b, decode (assemble (.hash b)) = .command (.hash (formBytes b))) ∧
  ∀ w b, wholeBlocks (formBytes b) = true → decode (assemble (.compress w b)) = .command (.compress w (formBytes b))

/-! ## Steps, responses and faults (10_state.md, 30_encoding.md, 60_exceptions.md) -/

/-- A step with a command at the head of the host's stream that decodes to a well-formed instruction is `exec` of it, with the command taken off the stream (R33, R78). -/
def Obligations.StepRunsDecodedInstr : Prop :=
  ∀ (s : State) (c : Command) (rest : List HostMove) (i : Instr), s.host = .command c :: rest →
    decode c = .command i → i.wf = true → step s = exec i { s with host := rest }

/-- R195: with nothing from the host the core is idle and holds its state. That such a step is a step at all is the model's choice (log entry 6). -/
def Obligations.IdleCoreHoldsState : Prop := ∀ s : State, s.host = [] → step s = .next s

/-- The model's choice (log entries 7 and 8): the two host moves to which the spec gives no outcome, a reset inside a command (U8) and overlapping commands (U12), stop the model by name. -/
def Obligations.MovesWithoutOutcomeStop : Prop :=
  (∀ (s : State) (c : Command) (rest : List HostMove), s.host = .resetDuring c :: rest →
    step s = .fault .resetDuringCommand) ∧
  ∀ (s : State) (c d : Command) (rest : List HostMove), s.host = .overlap c d :: rest →
    step s = .refused .overlappingCommands

/-- R77: a command gets exactly one response; STATUS is FAULT after the command in bits 2..0 and 0 above; RDATA is empty for a fault, for INIT and for UPDATE, the 32-byte digest for FINALIZE and HASH, the output state for COMPRESS. -/
def Obligations.OneResponsePerCommand : Prop :=
  ∀ (s : State) (c : Command) (rest : List HostMove), s.host = .command c :: rest →
    ∃ t r, step s = .next t ∧ t.responses = s.responses ++ [r] ∧
      r.status.toNat = (faultBits t.fault).toNat ∧ (faultBits t.fault).toNat ≤ 5 ∧
      (t.fault ≠ .ok → r.rdata = []) ∧
      (t.fault = .ok → c.cmd = 0x00000001 ∨ c.cmd = 0x00000002 → r.rdata = []) ∧
      (t.fault = .ok → c.cmd = 0x00000003 → r.rdata = digest t.h ∧ r.rdata.length = 32) ∧
      (t.fault = .ok → c.cmd = 0x00000004 → r.rdata = sha256 c.payload ∧ r.rdata.length = 32) ∧
      (t.fault = .ok → c.cmd = 0x00000005 →
        r.rdata = stateBytes (compressBlocks (compressState c.payload) (c.payload.drop 32)) ∧ r.rdata.length = 32)

/-- R183: exactly one outcome applies to a command. While FAULT ≠ 0 it is the sticky response; otherwise FAULT afterwards is what the first check that holds gives, and when none holds the command has its effect. -/
def Obligations.ChecksInOrder : Prop :=
  ∀ (s : State) (c : Command) (rest : List HostMove), s.host = .command c :: rest →
    (s.fault ≠ .ok →
      step s = .next { s with host := rest, responses := s.responses ++ [⟨statusWord s.fault, []⟩] }) ∧
    (s.fault = .ok →
      (∃ t, step s = .next t ∧ FirstFault c s t.fault) ∧
      (∀ f g, FirstFault c s f → FirstFault c s g → f = g) ∧
      (FirstFault c s .ok → ∃ i, decode c = .command i ∧ step s = exec i { s with host := rest }))

/-- R184: fault entry writes the code to FAULT and answers (code, []); no other register changes. Stated of every command that faults. -/
def Obligations.FaultEntryWritesOnlyFault : Prop :=
  ∀ (s t : State) (c : Command) (rest : List HostMove), s.fault = .ok → s.host = .command c :: rest →
    step s = .next t → t.fault ≠ .ok →
    t = { s with host := rest, fault := t.fault, responses := s.responses ++ [⟨statusWord t.fault, []⟩] }

/-- R185: while FAULT ≠ 0, every command answers (FAULT, []) and changes no register; so does every instruction's meaning. -/
def Obligations.StickyFaultAnswers : Prop :=
  (∀ (s : State) (c : Command) (rest : List HostMove), s.fault ≠ .ok → s.host = .command c :: rest →
    step s = .next { s with host := rest, responses := s.responses ++ [⟨statusWord s.fault, []⟩] }) ∧
  ∀ (s : State) (i : Instr), s.fault ≠ .ok →
    exec i s = .next { s with responses := s.responses ++ [⟨statusWord s.fault, []⟩] }

/-- R185 along a run: whatever commands follow a fault, all are answered with its code and nothing changes. -/
def Obligations.FaultedCoreIsQuiescent : Prop :=
  ∀ (s : State) (cs : List Command) (rest : List HostMove), s.fault ≠ .ok →
    s.host = cs.map HostMove.command ++ rest →
    runSteps cs.length s = .next { s with
      host := rest, responses := s.responses ++ List.replicate cs.length ⟨statusWord s.fault, []⟩ }

/-- R26, R186: FAULT changes only by fault entry, from 0, and by reset, which alone clears it. -/
def Obligations.OnlyResetClearsFault : Prop :=
  ∀ s t : State, step s = .next t → t.fault ≠ s.fault →
    (s.fault = .ok ∧ ∃ c rest, s.host = .command c :: rest) ∨ (t.fault = .ok ∧ ∃ rest, s.host = .reset :: rest)

/-- R25: PHASE becomes NONE only by reset, ABSORBING only by INIT, FINALIZED only by a FINALIZE from ABSORBING. -/
def Obligations.PhaseWriters : Prop :=
  ∀ s t : State, step s = .next t → t.phase ≠ s.phase →
    (t.phase = .none ∧ ∃ rest, s.host = .reset :: rest) ∨
    (t.phase = .absorbing ∧ ∃ c rest, s.host = .command c :: rest ∧ decode c = .command .init) ∨
    (t.phase = .finalized ∧ s.phase = .absorbing ∧
      ∃ c rest, s.host = .command c :: rest ∧ decode c = .command .finalize)

/-- R21 to R24: H is written by INIT, UPDATE and FINALIZE only, NSTAGED and TOTAL by INIT and UPDATE only, BUF by UPDATE only (reset unwrites them all). -/
def Obligations.RegisterWriters : Prop :=
  ∀ (s t : State) (c : Command) (rest : List HostMove), s.host = .command c :: rest → step s = .next t →
    (t.h ≠ s.h → decode c = .command .init ∨ (∃ d, decode c = .command (.update d)) ∨ decode c = .command .finalize) ∧
    (t.nstaged ≠ s.nstaged ∨ t.total ≠ s.total → decode c = .command .init ∨ ∃ d, decode c = .command (.update d)) ∧
    (t.buf ≠ s.buf → ∃ d, decode c = .command (.update d))

/-! ## Reset and the invariant (70_reset_and_hazards.md, 10_state.md) -/

/-- R210: after power-on reset PHASE is NONE and FAULT is 0. The other four registers are unwritten and nothing is stated of them. -/
def Obligations.ResetState : Prop :=
  phaseBits State.reset.phase = 0 ∧ faultBits State.reset.fault = 0

/-- R210, R211: reset between two commands gives PHASE = NONE and FAULT = 0 whatever came before, and the host gets nothing back (R196). -/
def Obligations.ResetBetweenCommands : Prop :=
  ∀ (s : State) (rest : List HostMove), s.host = .reset :: rest →
    ∃ t, step s = .next t ∧ t.phase = .none ∧ t.fault = .ok ∧ t.host = rest ∧ t.responses = s.responses

/-- R32 at reset. -/
def Obligations.ResetMeetsLifecycleInv : Prop := LifecycleInv State.reset

/-- R32: whenever PHASE = ABSORBING, NSTAGED ≤ 63, TOTAL is a multiple of 64 and TOTAL + NSTAGED ≤ 2^61 − 1; every step keeps this, whatever state it starts from. -/
def Obligations.StepKeepsLifecycleInv : Prop :=
  ∀ s t : State, LifecycleInv s → step s = .next t → LifecycleInv t

/-! ## The five commands (41_hasher.md, 40_compression.md) -/

/-- R140: with FAULT = 0, INIT sets H to IV, NSTAGED and TOTAL to 0 and PHASE to ABSORBING in every phase, and answers (0, []); nothing else changes, BUF among the rest. -/
def Obligations.InitStartsContext : Prop :=
  ∀ s : State, s.fault = .ok →
    exec .init s = .next { s with
      h := iv, nstaged := 0, total := 0, phase := .absorbing, responses := s.responses ++ [⟨0, []⟩] }

/-- R141: UPDATE of an open context, below the length limit: the whole blocks of the staged bytes and the payload, taken together, are compressed in order into H and counted in TOTAL, the rest is staged, and (0, []) is answered; PHASE and everything else but BUF is unchanged. -/
def Obligations.UpdateAbsorbsChunk : Prop :=
  ∀ (s : State) (d : List Byte), Absorbing s → s.total.toNat + s.nstaged.toNat + d.length < 2 ^ 61 →
    ∃ t, exec (.update d) s = .next t ∧
      t.h = compressBlocks s.h ((stagedBytes s ++ d).take (64 * ((s.nstaged.toNat + d.length) / 64))) ∧
      t.total.toNat = s.total.toNat + 64 * ((s.nstaged.toNat + d.length) / 64) ∧
      t.nstaged.toNat = (s.nstaged.toNat + d.length) % 64 ∧
      stagedBytes t = (stagedBytes s ++ d).drop (64 * ((s.nstaged.toNat + d.length) / 64)) ∧
      t.phase = s.phase ∧ t.fault = s.fault ∧ t.host = s.host ∧ t.draws = s.draws ∧
      t.responses = s.responses ++ [⟨0, []⟩]

/-- R56, R141: the bytes of BUF that UPDATE stores to are NSTAGED..NSTAGED+r−1 (step a, r = min(L, 64 − NSTAGED)) and, when the buffer fills, 0..n'−1 (step e); every other byte of BUF reads as before. Of a byte at or beyond NSTAGED, to which R22 and R36 give no defined value, this is the model's choice (log entry 3), not the spec's. -/
def Obligations.UpdateBufferFrame : Prop :=
  ∀ (s t : State) (d : List Byte), exec (.update d) s = .next t →
    ∀ i : Fin 64,
      ¬ (s.nstaged.toNat ≤ i.val ∧ i.val < s.nstaged.toNat + min d.length (64 - s.nstaged.toNat)) →
      ¬ (64 ≤ s.nstaged.toNat + d.length ∧ i.val < (s.nstaged.toNat + d.length) % 64) →
      t.buf[i] = s.buf[i]

/-- R141 corner case 1: UPDATE with an empty payload leaves every register as it was. -/
def Obligations.EmptyUpdateChangesNothing : Prop :=
  ∀ s : State, Absorbing s → s.total.toNat + s.nstaged.toNat < 2 ^ 61 →
    exec (.update []) s = .next { s with responses := s.responses ++ [⟨0, []⟩] }

/-- R142: UPDATE faults with E_LENGTH, writing nothing but FAULT, exactly when the message would reach 2^61 bytes; a message it accepts has a bit length below 2^64. -/
def Obligations.UpdateLengthLimit : Prop :=
  ∀ (s : State) (d : List Byte), Absorbing s →
    (2 ^ 61 ≤ s.total.toNat + s.nstaged.toNat + d.length →
      exec (.update d) s = .next { s with fault := .length, responses := s.responses ++ [⟨5, []⟩] }) ∧
    (s.total.toNat + s.nstaged.toNat + d.length < 2 ^ 61 →
      ∃ t, exec (.update d) s = .next t ∧ t.fault = .ok ∧ messageLength t * 8 < 2 ^ 64)

/-- R181, R182: UPDATE and FINALIZE fault with E_NO_CONTEXT in PHASE NONE and with E_FINALIZED in PHASE FINALIZED, and nothing but FAULT is written. -/
def Obligations.ContextNeeded : Prop :=
  ∀ (s : State) (i : Instr), s.fault = .ok → (i = .finalize ∨ ∃ d, i = .update d) →
    (s.phase = .none →
      exec i s = .next { s with fault := .noContext, responses := s.responses ++ [⟨3, []⟩] }) ∧
    (s.phase = .finalized →
      exec i s = .next { s with fault := .finalized, responses := s.responses ++ [⟨4, []⟩] })

/-- R143: UPDATE with D1 and then D2 leaves H, TOTAL, NSTAGED, PHASE and the defined bytes of BUF as one UPDATE with D1 ‖ D2 does. -/
def Obligations.UpdatesConcatenate : Prop :=
  ∀ (s : State) (d1 d2 : List Byte), Absorbing s →
    s.total.toNat + s.nstaged.toNat + d1.length + d2.length < 2 ^ 61 →
    ∃ t1 t2 t, exec (.update d1) s = .next t1 ∧ exec (.update d2) t1 = .next t2 ∧
      exec (.update (d1 ++ d2)) s = .next t ∧
      t2.h = t.h ∧ t2.total = t.total ∧ t2.nstaged = t.nstaged ∧ t2.phase = t.phase ∧ stagedBytes t2 = stagedBytes t

/-- R152: FINALIZE of an open context compresses the padded tail, its bit length being exactly (TOTAL + NSTAGED)·8 (R146), into H, sets PHASE to FINALIZED and answers the digest of that H; BUF, NSTAGED and TOTAL are unchanged. -/
def Obligations.FinalizeAnswersDigest : Prop :=
  ∀ s : State, Absorbing s → LifecycleInv s →
    ∃ bits : U64, bits.toNat = (s.total.toNat + s.nstaged.toNat) * 8 ∧
      exec .finalize s = .next { s with
        h := compressBlocks s.h (pad (stagedBytes s) bits), phase := .finalized,
        responses := s.responses ++ [⟨0, digest (compressBlocks s.h (pad (stagedBytes s) bits))⟩] }

/-- R154, R155: with FAULT = 0, HASH of a message below 2^61 bytes answers its SHA-256 digest, in every phase, and changes no register. -/
def Obligations.HashAnswersSha256 : Prop :=
  ∀ (s : State) (m : List Byte), s.fault = .ok → m.length < 2 ^ 61 →
    exec (.hash m) s = .next { s with responses := s.responses ++ [⟨0, sha256 m⟩] }

/-- R154: HASH of 2^61 bytes or more faults with E_LENGTH and writes nothing but FAULT. -/
def Obligations.HashLengthLimit : Prop :=
  ∀ (s : State) (m : List Byte), s.fault = .ok → 2 ^ 61 ≤ m.length →
    exec (.hash m) s = .next { s with fault := .length, responses := s.responses ++ [⟨5, []⟩] }

/-- R119, R116: with FAULT = 0, COMPRESS of one or more blocks answers the state after compressing them in order, each from the state the one before gave, in every phase, and changes no register. -/
def Obligations.CompressFoldsBlocks : Prop :=
  ∀ (s : State) (sin : HashState) (bs : List (List Byte)), s.fault = .ok → bs ≠ [] → (∀ b ∈ bs, b.length = 64) →
    exec (.compress sin bs.flatten) s =
      .next { s with responses := s.responses ++ [⟨0, stateBytes (bs.foldl compressBlock sin)⟩] }

/-- R119: blocks that are none, or not whole, make COMPRESS fault with E_OPERAND and write nothing but FAULT. -/
def Obligations.CompressNeedsWholeBlocks : Prop :=
  ∀ (s : State) (sin : HashState) (blocks : List Byte), s.fault = .ok →
    (blocks = [] ∨ blocks.length % 64 ≠ 0) →
    exec (.compress sin blocks) s = .next { s with fault := .operand, responses := s.responses ++ [⟨2, []⟩] }

/-! ## Messages, chunks and digests (41_hasher.md) -/

/-- R144: after INIT and successful UPDATEs, TOTAL, NSTAGED, the defined bytes of BUF and H are what the concatenation of the payloads gives. From any state with FAULT = 0. -/
def Obligations.UpdatesAbsorbMessage : Prop :=
  ∀ (s : State) (chunks : List (List Byte)) (rest : List HostMove), s.fault = .ok →
    chunks.flatten.length < 2 ^ 61 → s.host = issue .init :: (updateMoves chunks ++ rest) →
    ∃ t, runSteps (chunks.length + 1) s = .next t ∧ Absorbed chunks.flatten t ∧ t.host = rest

/-- R145: two ways of cutting one message into UPDATEs, from any two states with FAULT = 0, leave the same H, TOTAL, NSTAGED and BUF[0..NSTAGED), and FINALIZE then answers the same. -/
def Obligations.ChunkingDoesNotMatter : Prop :=
  ∀ (s s' : State) (chunks chunks' : List (List Byte)), s.fault = .ok → s'.fault = .ok →
    chunks.flatten = chunks'.flatten → chunks.flatten.length < 2 ^ 61 →
    s.host = issue .init :: (updateMoves chunks ++ [issue .finalize]) →
    s'.host = issue .init :: (updateMoves chunks' ++ [issue .finalize]) →
    ∃ t t' u u' r, runSteps (chunks.length + 1) s = .next t ∧ runSteps (chunks'.length + 1) s' = .next t' ∧
      t.h = t'.h ∧ t.total = t'.total ∧ t.nstaged = t'.nstaged ∧ stagedBytes t = stagedBytes t' ∧
      step t = .next u ∧ step t' = .next u' ∧
      u.responses = t.responses ++ [r] ∧ u'.responses = t'.responses ++ [r]

/-- R150, R152: INIT, UPDATEs and FINALIZE from any state with FAULT = 0 answer, last, the SHA-256 digest of the concatenated payloads: the digest of the padded message compressed from IV. -/
def Obligations.SessionAnswersSha256 : Prop :=
  ∀ (s : State) (chunks : List (List Byte)) (rest : List HostMove), s.fault = .ok →
    chunks.flatten.length < 2 ^ 61 → s.host = issue .init :: (updateMoves chunks ++ issue .finalize :: rest) →
    ∃ t, runSteps (chunks.length + 2) s = .next t ∧ t.host = rest ∧ t.phase = .finalized ∧ t.fault = .ok ∧
      t.responses = s.responses ++ List.replicate (chunks.length + 1) ⟨0, []⟩ ++ [⟨0, sha256 chunks.flatten⟩]

/-- R155: HASH answers what INIT; UPDATE M; FINALIZE answers, from any two states with FAULT = 0, and leaves H, BUF, NSTAGED, TOTAL and PHASE as they were. -/
def Obligations.HashEqualsSession : Prop :=
  ∀ (s s' : State) (m : List Byte), s.fault = .ok → s'.fault = .ok → m.length < 2 ^ 61 →
    s'.host = [issue .init, issue (.update m), issue .finalize] →
    ∃ t t' d, exec (.hash m) s = .next t ∧ SameContext s t ∧ t.responses = s.responses ++ [⟨0, d⟩] ∧
      runSteps 3 s' = .next t' ∧ t'.responses = s'.responses ++ [⟨0, []⟩, ⟨0, []⟩, ⟨0, d⟩]

/-- R150: the padded message is block-aligned, and in a context that has absorbed the message the bytes FINALIZE compresses are the last 64·nb bytes of it. -/
def Obligations.PaddedMessageIsAligned : Prop :=
  (∀ m : List Byte, (paddedMessage m).length % 64 = 0) ∧
  ∀ (m : List Byte) (s : State), m.length < 2 ^ 61 → Absorbed m s →
    pad (stagedBytes s) (bitLength (messageLength s)) = (paddedMessage m).drop (64 * (m.length / 64)) ∧
    (paddedMessage m).length - 64 * (m.length / 64) = 64 * (if s.nstaged.toNat ≤ 55 then 1 else 2)

/-- R147, R148, R151: for a tail of n ≤ 63 bytes the padded data is one block when n ≤ 55 and two otherwise; it holds the tail, 0x80, zeros, and the bit length in its last 8 bytes. -/
def Obligations.PadBytes : Prop :=
  ∀ (tail : List Byte) (bits : U64) (nb : Nat), tail.length ≤ 63 →
    (tail.length ≤ 55 → nb = 1) → (56 ≤ tail.length → nb = 2) →
    (pad tail bits).length = 64 * nb ∧
    (pad tail bits).take tail.length = tail ∧
    (pad tail bits).getD tail.length 0 = 0x80 ∧
    (∀ i, tail.length < i → i < 64 * nb - 8 → (pad tail bits).getD i 1 = 0) ∧
    (pad tail bits).drop (64 * nb - 8) = be64bytes bits

/-- R149: the padding state machine, run over a PADBUF with any contents, ends in at most seven steps with the chaining value and the digest that Pad and CompressBlocks give. -/
def Obligations.PaddingMachineEqualsPad : Prop :=
  ∀ (junk : Vector Byte 128) (h : HashState) (tail : List Byte) (bits : U64), tail.length ≤ 63 →
    (padRun 7 (padStart junk h tail bits)).phase = .done ∧
    (padRun 7 (padStart junk h tail bits)).h = compressBlocks h (pad tail bits) ∧
    (padRun 7 (padStart junk h tail bits)).answer = digest (compressBlocks h (pad tail bits))

/-- R153: the digest has 32 bytes, byte 4i + j being bits [31 − 8j : 24 − 8j] of word i. -/
def Obligations.DigestBytes : Prop :=
  ∀ hs : HashState, (digest hs).length = 32 ∧
    ∀ i < 8, ∀ j < 4, (digest hs).getD (4 * i + j) 0 = ((hashWords hs).getD i 0).extractLsb' (24 - 8 * j) 8

/-- R146: in a context that meets R32 the bit length is exactly (TOTAL + NSTAGED)·8 and never wraps. -/
def Obligations.BitLengthIsExact : Prop :=
  ∀ s : State, s.phase = .absorbing → LifecycleInv s →
    (bitLength (messageLength s)).toNat = (s.total.toNat + s.nstaged.toNat) * 8

/-! ## The compression engine (40_compression.md) and byte order (20_memory.md) -/

/-- R101, R102, R107, R108 bit by bit: rotation, shift, choice and majority. -/
def Obligations.WordOperationsBitwise : Prop :=
  (∀ (x : Word) (n i : Nat), 1 ≤ n → n ≤ 31 → i < 32 → (rotr x n).getLsbD i = x.getLsbD ((i + n) % 32)) ∧
  (∀ (x : Word) (n i : Nat), (shr x n).getLsbD i = x.getLsbD (i + n)) ∧
  (∀ (e f g : Word) (i : Nat), (ch e f g).getLsbD i = if e.getLsbD i then f.getLsbD i else g.getLsbD i) ∧
  ∀ (a b c : Word) (i : Nat), (maj a b c).getLsbD i =
    if a.getLsbD i = b.getLsbD i then a.getLsbD i else c.getLsbD i

/-- R109, R110: the schedule has 64 words, the first 16 the block's big-endian groups, the others by the recurrence. -/
def Obligations.ScheduleMeetsRecurrence : Prop :=
  ∀ (block : List Byte) (t : Nat),
    (schedule block).length = 64 ∧
    (t < 16 → (schedule block).getD t 0 = be32 block (4 * t)) ∧
    (16 ≤ t → t < 64 → (schedule block).getD t 0 =
      smallSigma1 ((schedule block).getD (t - 2) 0) + (schedule block).getD (t - 7) 0
        + smallSigma0 ((schedule block).getD (t - 15) 0) + (schedule block).getD (t - 16) 0)

/-- R113, R115: CompressBlock is exactly 64 rounds over the constants and the schedule words, paired in order, between loading and mixing. -/
def Obligations.SixtyFourRoundsInOrder : Prop :=
  ∀ (hin : HashState) (block : List Byte),
    ((kTable.zip (schedule block)).length = 64) ∧
    compressBlock hin block =
      mixState hin ((kTable.zip (schedule block)).foldl (fun v kw => round kw.1 kw.2 v) (loadVars hin))

/-- R116: CompressBlocks of no bytes is the identity, and of whole blocks followed by more bytes it takes the first part and then the rest from the state that gave. -/
def Obligations.CompressBlocksInOrder : Prop :=
  (∀ h : HashState, compressBlocks h [] = h) ∧
  ∀ (h : HashState) (x y : List Byte), x.length % 64 = 0 →
    compressBlocks h (x ++ y) = compressBlocks (compressBlocks h x) y

/-- R117: the 16-word sliding window computes the same CompressBlock as the 64-word schedule. -/
def Obligations.SlidingWindowEqualsSchedule : Prop :=
  ∀ (hin : HashState) (block : List Byte), compressBlockWindow hin block = compressBlock hin block

/-- R51 to R53: the big-endian encodings are undone by reading, at any place of a byte sequence; the length field's bytes weigh 256 to the power of their distance from the end. -/
def Obligations.BigEndianRoundTrips : Prop :=
  (∀ (w : Word) (x y : List Byte), be32 (x ++ (be32bytes w ++ y)) x.length = w) ∧
  ∀ v : U64, (be64bytes v).length = 8 ∧ (be64bytes v).foldl (fun n b => 256 * n + b.toNat) 0 = v.toNat

/-- R12, R57: MemRead after MemWrite within BUF gives the bytes written, and every other byte reads as before. -/
def Obligations.BufferReadAfterWrite : Prop :=
  ∀ (buf : Vector Byte 64) (addr : Nat) (v : List Byte), addr + v.length ≤ 64 →
    memRead (memWrite buf addr v) addr v.length = v ∧
    ∀ i : Fin 64, i.val < addr ∨ addr + v.length ≤ i.val → (memWrite buf addr v)[i] = buf[i]

/-! ## The whole machine -/

/-- R213: the command sequences of the lifecycle grammar never fault, apart from E_LENGTH. -/
def Obligations.LifecycleNeverFaults : Prop :=
  ∀ (s : State) (moves : List HostMove) (k : Nat), SessionMoves moves → s.host = moves → 1 ≤ k → k ≤ moves.length →
    ∃ t, runSteps k s = .next t ∧ (t.fault = .ok ∨ t.fault = .length)

/-- R35, R36, R38: what a core answers does not depend on the bytes of BUF at and beyond NSTAGED, nor on H, BUF, NSTAGED and TOTAL while PHASE is NONE or FINALIZED: two cores that differ only there answer alike and stay so, for any number of steps. -/
def Obligations.HiddenStateIsNeverSeen : Prop :=
  ∀ (k : Nat) (s t : State), Indistinguishable s t → SameAnswer Indistinguishable (runSteps k s) (runSteps k t)

/-- R36, U6: letting the bytes of BUF without a defined value take an arbitrary draw before every step changes no answer and nothing the host can see: the machine with draws and the model's own, which keeps the bytes last stored there (log entry 3), answer alike for every list of draws. -/
def Obligations.UndefinedBytesMayBeDrawn : Prop :=
  ∀ (draws : List (Vector Byte 64)) (s : State),
    SameAnswer Indistinguishable (runDrawn draws s) (runSteps draws.length s)

/-- R191, R210: every instance of a system starts from reset, with PHASE = NONE and FAULT = 0; the first of them is `State.reset`. That the instances start with nothing from their hosts, and each with draws of its own, is the model's choice (log entries 2 and 4). -/
def Obligations.SystemStartsFromReset : Prop :=
  (∀ k : Fin Config.numInstances,
    phaseBits System.reset.cores[k].phase = 0 ∧ faultBits System.reset.cores[k].fault = 0 ∧
      System.reset.cores[k].host = [] ∧ (k.val = 0 → System.reset.cores[k] = State.reset)) ∧
  ∀ j k : Fin Config.numInstances, System.reset.cores[j].draws.core = System.reset.cores[k].draws.core → j = k

/-- R191: a step of one instance leaves every other instance as it was, and does to its own what a single core does. -/
def Obligations.InstancesAreIsolated : Prop :=
  ∀ (k : Fin Config.numInstances) (y z : System), stepInstance k y = .next z →
    step y.cores[k] = .next z.cores[k] ∧ ∀ j : Fin Config.numInstances, j ≠ k → z.cores[j] = y.cores[j]

/-- R65: under any interleaving, each instance does exactly what it would do alone for as many steps as it was given. -/
def Obligations.AnyInterleavingGivesSameResponses : Prop :=
  ∀ (order : List (Fin Config.numInstances)) (y z : System), runInterleaving order y = .next z →
    ∀ j : Fin Config.numInstances, runSteps (order.count j) y.cores[j] = .next z.cores[j]

/-- R217: the number of CompressBlock calls of each command that does not fault, and none for one that does. The counted inputs are a list beside the meanings (log entry 19); the last four clauses bind the two: every input is whole blocks, and H after INIT, UPDATE and FINALIZE and the answers of HASH and COMPRESS are what the engine gives on exactly these inputs, in order, from the chaining value the command's rule starts from. -/
def Obligations.EngineCallsPerCommand : Prop :=
  ∀ s : State,
    (∀ i, faultAfter i s ≠ .ok → engineCalls i s = 0) ∧
    (engineCalls .init s = 0) ∧
    (∀ d, faultAfter (.update d) s = .ok → engineCalls (.update d) s =
      if s.nstaged.toNat + d.length < 64 then 0 else (s.nstaged.toNat + d.length) / 64) ∧
    (faultAfter .finalize s = .ok → engineCalls .finalize s = if s.nstaged.toNat ≤ 55 then 1 else 2) ∧
    (∀ m, faultAfter (.hash m) s = .ok →
      engineCalls (.hash m) s = m.length / 64 + if m.length % 64 ≤ 55 then 1 else 2) ∧
    (∀ sin blocks, faultAfter (.compress sin blocks) s = .ok →
      engineCalls (.compress sin blocks) s = blocks.length / 64) ∧
    (∀ i, faultAfter i s = .ok → ∀ bytes ∈ engineInputs i s, bytes.length % 64 = 0) ∧
    (∀ i, faultAfter i s = .ok → i = .init ∨ i = .finalize ∨ (∃ d, i = .update d) →
      ∃ t, exec i s = .next t ∧
        t.h = (engineInputs i s).foldl compressBlocks (if i = .init then iv else s.h)) ∧
    (∀ m, faultAfter (.hash m) s = .ok →
      ∃ t, exec (.hash m) s = .next t ∧
        t.responses = s.responses ++ [⟨0, digest ((engineInputs (.hash m) s).foldl compressBlocks iv)⟩]) ∧
    (∀ sin blocks, faultAfter (.compress sin blocks) s = .ok →
      ∃ t, exec (.compress sin blocks) s = .next t ∧
        t.responses = s.responses ++ [⟨0, stateBytes ((engineInputs (.compress sin blocks) s).foldl compressBlocks sin)⟩])
end

