-- ==== Sys2Proof/Laws/Bytes.lean ====
section
/-! SUPPORT. The laws of byte sequences: lengths of the encodings, and BUF read and written byte by byte (00_scope.md R12, 20_memory.md R51 to R57). -/

namespace Sys2Proof.Machine

@[simp] theorem be32bytes_length (w : Word) : (be32bytes w).length = 4 := rfl

@[simp] theorem be64bytes_length (v : U64) : (be64bytes v).length = 8 := rfl

@[simp] theorem zeros_length (n : Nat) : (zeros n).length = n := by simp [zeros]

@[simp] theorem hashWords_length (hs : HashState) : (hashWords hs).length = 8 := rfl

@[simp] theorem stateBytes_length (hs : HashState) : (stateBytes hs).length = 32 := rfl

@[simp] theorem digest_length (hs : HashState) : (digest hs).length = 32 := rfl

/-- A word read back from its own bytes (R52). -/
theorem be32_be32bytes (w : Word) (rest : List Byte) : be32 (be32bytes w ++ rest) 0 = w := by
  apply BitVec.eq_of_getLsbD_eq
  intro i hi
  simp only [be32, be32bytes, List.cons_append, List.getD_cons_zero, List.getD_cons_succ, BitVec.getLsbD_or,
    BitVec.getLsbD_shiftLeft, BitVec.getLsbD_setWidth, BitVec.getLsbD_extractLsb']
  interval_cases i <;> simp

/-- Reading a word does not look at the bytes before it (R51). -/
theorem be32_append (x y : List Byte) (i : Nat) : be32 (x ++ y) (x.length + i) = be32 y i := by
  have h (j : Nat) : (x ++ y).getD (x.length + j) 0 = y.getD j 0 := by
    rw [List.getD_append_right _ _ _ _ (by omega), Nat.add_sub_cancel_left]
  simp only [be32, Nat.add_assoc, h]

/-- `MemRead` has the length asked for while it stays within the buffer. -/
theorem memRead_length {size : Nat} (buf : Vector Byte size) (addr n : Nat) (h : addr + n ≤ size) :
    (memRead buf addr n).length = n := by
  simp [memRead]; omega

/-- What a write leaves at each index (R12). -/
theorem memWrite_getElem {size : Nat} (buf : Vector Byte size) (addr : Nat) (v : List Byte) (i : Nat) (h : i < size) :
    (memWrite buf addr v)[i] = if addr ≤ i then v.getD (i - addr) buf[i] else buf[i] := by
  simp [memWrite]

/-- A byte inside a write is the byte written (R12). -/
theorem memWrite_inside {size : Nat} (buf : Vector Byte size) (addr : Nat) (v : List Byte) (i : Nat) (h : i < size)
    (hi : addr ≤ i) (hv : i - addr < v.length) : (memWrite buf addr v)[i] = v[i - addr] := by
  rw [memWrite_getElem, if_pos hi, List.getD_eq_getElem _ _ hv]

/-- A byte outside a write stays (R12). -/
theorem memWrite_outside {size : Nat} (buf : Vector Byte size) (addr : Nat) (v : List Byte) (i : Nat) (h : i < size)
    (hi : i < addr ∨ addr + v.length ≤ i) : (memWrite buf addr v)[i] = buf[i] := by
  rw [memWrite_getElem]
  split
  · rw [List.getD_eq_default _ _ (by omega)]
  · rfl

/-- A buffer after a write, as a list: what stood before, the bytes written, what stood after (R12). -/
theorem memWrite_toList {size : Nat} (buf : Vector Byte size) (addr : Nat) (v : List Byte) (h : addr + v.length ≤ size) :
    (memWrite buf addr v).toList = buf.toList.take addr ++ (v ++ buf.toList.drop (addr + v.length)) := by
  apply List.ext_getElem
  · simp; omega
  · intro i h1 h2
    simp only [Vector.length_toList] at h1
    have this : (memWrite buf addr v).toList[i] = (memWrite buf addr v)[i] := by simp
    rw [this]
    by_cases ha : i < addr
    · rw [memWrite_outside _ _ _ _ h1 (.inl ha), List.getElem_append_left (by simp; omega)]; simp
    · rw [List.getElem_append_right (by simp; omega)]
      by_cases hb : i - addr < v.length
      · rw [memWrite_inside _ _ _ _ h1 (by omega) hb, List.getElem_append_left (by simp; omega)]
        congr 1; simp; omega
      · rw [memWrite_outside _ _ _ _ h1 (.inr (by omega)), List.getElem_append_right (by simp; omega)]
        simp; congr 1; omega

/-- Writing no bytes changes nothing. -/
@[simp] theorem memWrite_nil {size : Nat} (buf : Vector Byte size) (addr : Nat) : memWrite buf addr [] = buf := by
  apply Vector.ext
  intro i hi
  exact memWrite_outside _ _ _ _ _ (by simp; omega)

/-- Reading from the start is taking a front part of the list. -/
theorem memRead_zero {size : Nat} (buf : Vector Byte size) (n : Nat) : memRead buf 0 n = buf.toList.take n := by
  simp [memRead]

/-- The padded data is whole blocks (R148, R151). -/
theorem pad_length (tail : List Byte) (bits : U64) (h : tail.length ≤ 63) :
    (pad tail bits).length = 64 * padBlocks tail.length := by
  simp only [pad, padBlocks, List.length_append, zeros_length, be64bytes_length, List.length_singleton]
  split <;> omega

/-- A COMPRESS payload gives back the state in front of it (R74). -/
theorem compressState_stateBytes (hs : HashState) (rest : List Byte) : compressState (stateBytes hs ++ rest) = hs := by
  have word (x : List Byte) (w : Word) (y : List Byte) (n : Nat) (hn : x.length = n) :
      be32 (x ++ (be32bytes w ++ y)) n = w := by
    have h := be32_append x (be32bytes w ++ y) 0
    rw [be32_be32bytes, Nat.add_zero, hn] at h
    exact h
  obtain ⟨w0, w1, w2, w3, w4, w5, w6, w7⟩ := hs
  simp only [compressState, stateBytes, hashWords, List.flatMap_cons, List.flatMap_nil, List.append_nil,
    List.append_assoc, HashState.mk.injEq]
  refine ⟨be32_be32bytes _ _, ?_, ?_, ?_, ?_, ?_, ?_, ?_⟩
  · exact word (be32bytes w0) w1 _ 4 rfl
  · exact word (be32bytes w0 ++ be32bytes w1) w2 _ 8 rfl
  · exact word (be32bytes w0 ++ be32bytes w1 ++ be32bytes w2) w3 _ 12 rfl
  · exact word (be32bytes w0 ++ be32bytes w1 ++ be32bytes w2 ++ be32bytes w3) w4 _ 16 rfl
  · exact word (be32bytes w0 ++ be32bytes w1 ++ be32bytes w2 ++ be32bytes w3 ++ be32bytes w4) w5 _ 20 rfl
  · exact word (be32bytes w0 ++ be32bytes w1 ++ be32bytes w2 ++ be32bytes w3 ++ be32bytes w4 ++ be32bytes w5) w6 _ 24 rfl
  · exact word (be32bytes w0 ++ be32bytes w1 ++ be32bytes w2 ++ be32bytes w3 ++ be32bytes w4 ++ be32bytes w5 ++
      be32bytes w6) w7 _ 28 rfl

/-- The bytes of a word read from a byte sequence are the bytes it was read from (R51, R52). -/
theorem be32bytes_be32 (bytes : List Byte) (i : Nat) (h : i + 4 ≤ bytes.length) :
    be32bytes (be32 bytes i) = (bytes.drop i).take 4 := by
  have four : (bytes.drop i).take 4 =
      [bytes.getD i 0, bytes.getD (i + 1) 0, bytes.getD (i + 2) 0, bytes.getD (i + 3) 0] := by
    apply List.ext_getElem
    · simp; omega
    · intro k h1 h2
      simp only [List.length_cons, List.length_nil] at h2
      have h3 : k = 0 ∨ k = 1 ∨ k = 2 ∨ k = 3 := by omega
      rcases h3 with rfl | rfl | rfl | rfl <;>
        simp [show i < bytes.length by omega, show i + 1 < bytes.length by omega,
          show i + 2 < bytes.length by omega, show i + 3 < bytes.length by omega]
  rw [four]
  simp only [be32bytes, be32]
  generalize bytes.getD i 0 = a
  generalize bytes.getD (i + 1) 0 = b
  generalize bytes.getD (i + 2) 0 = c
  generalize bytes.getD (i + 3) 0 = d
  simp only [List.cons.injEq, and_true]
  refine ⟨?_, ?_, ?_, ?_⟩ <;>
    (apply BitVec.eq_of_getLsbD_eq
     intro j hj
     simp
     interval_cases j <;> simp)

/-- The state in front of a COMPRESS payload, packed again, is the first 32 bytes (R74). -/
theorem stateBytes_compressState (bytes : List Byte) (h : 32 ≤ bytes.length) :
    stateBytes (compressState bytes) = bytes.take 32 := by
  simp only [stateBytes, hashWords, compressState, List.flatMap_cons, List.flatMap_nil, List.append_nil]
  rw [be32bytes_be32 _ 0 (by omega), be32bytes_be32 _ 4 (by omega), be32bytes_be32 _ 8 (by omega),
    be32bytes_be32 _ 12 (by omega), be32bytes_be32 _ 16 (by omega), be32bytes_be32 _ 20 (by omega),
    be32bytes_be32 _ 24 (by omega), be32bytes_be32 _ 28 (by omega),
    show (32 : Nat) = 4 + (4 + (4 + (4 + (4 + (4 + (4 + 4)))))) from rfl]
  simp only [List.take_add, List.drop_drop, List.drop_zero]

end Sys2Proof.Machine
end

