-- ==== Sys2Proof/Laws/Decode.lean ====
section
/-! SUPPORT. The decoder, once: the fields of a command word, and everything decoding can answer (30_encoding.md R71, R78). -/

namespace Sys2Proof

/-- RSV = 0 says that the word is below 16 (R71). -/
theorem rsvField_eq_zero (w : Word) : rsvField w = 0 ↔ w.toNat / 16 = 0 := by
  have hw := w.isLt
  simp only [rsvField]
  constructor <;> intro h
  · have h2 := congrArg BitVec.toNat h
    simp [Nat.shiftRight_eq_div_pow] at h2
    omega
  · apply BitVec.eq_of_toNat_eq
    simp [Nat.shiftRight_eq_div_pow]
    omega

/-- OP is the word modulo 16 (R71). -/
theorem opField_toNat (w : Word) : (opField w).toNat = w.toNat % 16 := by simp [opField]

/-- A word with RSV = 0 decodes by its opcode (R78). -/
theorem decode_of_rsv_zero {c : Command} (h : rsvField c.cmd = 0) :
    decode c = decodeOp c.cmd.toNat c.payload := by
  have h2 : c.cmd.toNat < 16 := by rw [rsvField_eq_zero] at h; omega
  unfold decode
  rw [if_neg (by simpa using h), opField_toNat, Nat.mod_eq_of_lt h2]

/-- A word with RSV ≠ 0 is illegal (R75). -/
theorem decode_of_rsv {c : Command} (h : rsvField c.cmd ≠ 0) : decode c = .illegal := by
  unfold decode
  rw [if_pos h]

/-- Everything decoding can answer, by the command word (R72, R78). -/
theorem decode_cases (c : Command) :
    (decode c = .illegal ∧ c.cmd ≠ 1 ∧ c.cmd ≠ 2 ∧ c.cmd ≠ 3 ∧ c.cmd ≠ 4 ∧ c.cmd ≠ 5) ∨
    (c.cmd = 1 ∧ decode c = if c.payload.length = 0 then .command .init else .badOperand) ∨
    (c.cmd = 2 ∧ decode c = .command (.update c.payload)) ∨
    (c.cmd = 3 ∧ decode c = if c.payload.length = 0 then .command .finalize else .badOperand) ∨
    (c.cmd = 4 ∧ decode c = .command (.hash c.payload)) ∨
    (c.cmd = 5 ∧ decode c = if Machine.compressLength c.payload.length then
      .command (.compress (Machine.compressState c.payload) (Machine.compressBlockBytes c.payload)) else .badOperand) := by
  by_cases hr : rsvField c.cmd = 0
  · rw [decode_of_rsv_zero hr]
    rw [rsvField_eq_zero] at hr
    obtain ⟨w, p⟩ := c
    simp only at *
    generalize hn : w.toNat = n at *
    have hw : w = BitVec.ofNat 32 n := by apply BitVec.eq_of_toNat_eq; simp [hn]; omega
    subst hw
    have hlt : n < 16 := by omega
    clear hr hn
    interval_cases n <;> simp [decodeOp]
  · refine .inl ⟨decode_of_rsv hr, ?_⟩
    refine ⟨?_, ?_, ?_, ?_, ?_⟩ <;> (intro h; rw [h] at hr; exact hr (by decide))

/-- The legal lengths of a COMPRESS payload (R73). -/
theorem compressLength_iff (n : Nat) : Machine.compressLength n = true ↔ ∃ k, 1 ≤ k ∧ n = 32 + 64 * k := by
  simp only [Machine.compressLength, Bool.and_eq_true, decide_eq_true_eq]
  constructor
  · intro h; exact ⟨(n - 32) / 64, by omega, by omega⟩
  · rintro ⟨k, h1, h2⟩; omega

end Sys2Proof
end

