-- ==== Sys2Proof/Laws/Engine.lean ====
section
/-! SUPPORT. The laws of the engine's loops (40_compression.md R109 to R116): how a schedule grows and how a chain of blocks splits. -/

namespace Sys2Proof.Machine

@[simp] theorem kTable_length : kTable.length = 64 := rfl

@[simp] theorem blockWords_length (block : List Byte) : (blockWords block).length = 16 := by simp [blockWords]

@[simp] theorem extendSchedule_length (n : Nat) (ws : List Word) : (extendSchedule n ws).length = ws.length + n := by
  induction n generalizing ws with
  | zero => rfl
  | succ n ih => simp [extendSchedule, ih]; omega

/-- Words already in a schedule stay as it grows (R110: in increasing t). -/
theorem extendSchedule_getD_old (n : Nat) (ws : List Word) (t : Nat) (h : t < ws.length) :
    (extendSchedule n ws).getD t 0 = ws.getD t 0 := by
  induction n generalizing ws with
  | zero => rfl
  | succ n ih =>
    rw [extendSchedule, ih _ (by simp; omega), List.getD_append _ _ _ _ h]

/-- One more word is the word the recurrence gives for the words before it (R110). -/
theorem extendSchedule_succ (n : Nat) (ws : List Word) :
    extendSchedule (n + 1) ws = extendSchedule n ws ++ [nextScheduleWord (extendSchedule n ws)] := by
  induction n generalizing ws with
  | zero => rfl
  | succ n ih => rw [extendSchedule, ih, extendSchedule]

/-- `m` words more and then `n` words more (R110). -/
theorem extendSchedule_add (m n : Nat) (ws : List Word) :
    extendSchedule (m + n) ws = extendSchedule n (extendSchedule m ws) := by
  induction m generalizing ws with
  | zero => simp [extendSchedule]
  | succ m ih => rw [Nat.succ_add]; simp [extendSchedule, ih]

@[simp] theorem compressBlocks_nil (h : HashState) : compressBlocks h [] = h := rfl

/-- Bytes after the `k` blocks a chain takes do not matter (R116). -/
theorem compressChain_append (k : Nat) (h : HashState) (x y : List Byte) (hx : 64 * k ≤ x.length) :
    compressChain k h (x ++ y) = compressChain k h x := by
  induction k generalizing h x with
  | zero => rfl
  | succ k ih =>
    simp only [compressChain]
    rw [List.take_append_of_le_length (by omega), List.drop_append_of_le_length (by omega), ih]
    simp; omega

/-- A chain of `j + k` blocks is the first `j` and then `k` from the state they gave (R116). -/
theorem compressChain_add (j k : Nat) (h : HashState) (bytes : List Byte) :
    compressChain (j + k) h bytes = compressChain k (compressChain j h bytes) (bytes.drop (64 * j)) := by
  induction j generalizing h bytes with
  | zero => simp [compressChain]
  | succ j ih =>
    rw [Nat.succ_add, compressChain, ih, compressChain, List.drop_drop]
    congr 2; omega

/-- One block (R115, R116). -/
theorem compressBlocks_block (h : HashState) (block : List Byte) (hb : block.length = 64) :
    compressBlocks h block = compressBlock h block := by
  simp [compressBlocks, hb, compressChain, List.take_of_length_le]

end Sys2Proof.Machine
end

