-- ==== Sys2Proof/Laws/State.lean ====
section
/-! SUPPORT. What each named update of the state leaves in each field: one lemma per field, true by unfolding. -/

namespace Sys2Proof.Machine

/-! ### After a response -/

@[simp] theorem respond_h (f : FaultCode) (data : List Byte) (s : State) : (respond f data s).h = s.h := rfl
@[simp] theorem respond_buf (f : FaultCode) (data : List Byte) (s : State) : (respond f data s).buf = s.buf := rfl
@[simp] theorem respond_nstaged (f : FaultCode) (data : List Byte) (s : State) : (respond f data s).nstaged = s.nstaged := rfl
@[simp] theorem respond_total (f : FaultCode) (data : List Byte) (s : State) : (respond f data s).total = s.total := rfl
@[simp] theorem respond_phase (f : FaultCode) (data : List Byte) (s : State) : (respond f data s).phase = s.phase := rfl
@[simp] theorem respond_fault (f : FaultCode) (data : List Byte) (s : State) : (respond f data s).fault = s.fault := rfl
@[simp] theorem respond_host (f : FaultCode) (data : List Byte) (s : State) : (respond f data s).host = s.host := rfl
@[simp] theorem respond_responses (f : FaultCode) (data : List Byte) (s : State) : (respond f data s).responses = s.responses ++ [⟨statusWord f, data⟩] := rfl
@[simp] theorem respond_draws (f : FaultCode) (data : List Byte) (s : State) : (respond f data s).draws = s.draws := rfl

/-! ### After a write to BUF -/

@[simp] theorem writeBuf_h (addr : Nat) (v : List Byte) (s : State) : (writeBuf addr v s).h = s.h := rfl
@[simp] theorem writeBuf_buf (addr : Nat) (v : List Byte) (s : State) : (writeBuf addr v s).buf = memWrite s.buf addr v := rfl
@[simp] theorem writeBuf_nstaged (addr : Nat) (v : List Byte) (s : State) : (writeBuf addr v s).nstaged = s.nstaged := rfl
@[simp] theorem writeBuf_total (addr : Nat) (v : List Byte) (s : State) : (writeBuf addr v s).total = s.total := rfl
@[simp] theorem writeBuf_phase (addr : Nat) (v : List Byte) (s : State) : (writeBuf addr v s).phase = s.phase := rfl
@[simp] theorem writeBuf_fault (addr : Nat) (v : List Byte) (s : State) : (writeBuf addr v s).fault = s.fault := rfl
@[simp] theorem writeBuf_host (addr : Nat) (v : List Byte) (s : State) : (writeBuf addr v s).host = s.host := rfl
@[simp] theorem writeBuf_responses (addr : Nat) (v : List Byte) (s : State) : (writeBuf addr v s).responses = s.responses := rfl
@[simp] theorem writeBuf_draws (addr : Nat) (v : List Byte) (s : State) : (writeBuf addr v s).draws = s.draws := rfl

/-! ### After setting NSTAGED -/

@[simp] theorem setStaged_h (n : Nat) (s : State) : (setStaged n s).h = s.h := rfl
@[simp] theorem setStaged_buf (n : Nat) (s : State) : (setStaged n s).buf = s.buf := rfl
@[simp] theorem setStaged_nstaged (n : Nat) (s : State) : (setStaged n s).nstaged = BitVec.ofNat 6 n := rfl
@[simp] theorem setStaged_total (n : Nat) (s : State) : (setStaged n s).total = s.total := rfl
@[simp] theorem setStaged_phase (n : Nat) (s : State) : (setStaged n s).phase = s.phase := rfl
@[simp] theorem setStaged_fault (n : Nat) (s : State) : (setStaged n s).fault = s.fault := rfl
@[simp] theorem setStaged_host (n : Nat) (s : State) : (setStaged n s).host = s.host := rfl
@[simp] theorem setStaged_responses (n : Nat) (s : State) : (setStaged n s).responses = s.responses := rfl
@[simp] theorem setStaged_draws (n : Nat) (s : State) : (setStaged n s).draws = s.draws := rfl

/-! ### After compressing into H -/

@[simp] theorem compressInto_h (bytes : List Byte) (s : State) : (compressInto bytes s).h = compressBlocks s.h bytes := rfl
@[simp] theorem compressInto_buf (bytes : List Byte) (s : State) : (compressInto bytes s).buf = s.buf := rfl
@[simp] theorem compressInto_nstaged (bytes : List Byte) (s : State) : (compressInto bytes s).nstaged = s.nstaged := rfl
@[simp] theorem compressInto_total (bytes : List Byte) (s : State) : (compressInto bytes s).total = s.total + BitVec.ofNat 64 bytes.length := rfl
@[simp] theorem compressInto_phase (bytes : List Byte) (s : State) : (compressInto bytes s).phase = s.phase := rfl
@[simp] theorem compressInto_fault (bytes : List Byte) (s : State) : (compressInto bytes s).fault = s.fault := rfl
@[simp] theorem compressInto_host (bytes : List Byte) (s : State) : (compressInto bytes s).host = s.host := rfl
@[simp] theorem compressInto_responses (bytes : List Byte) (s : State) : (compressInto bytes s).responses = s.responses := rfl
@[simp] theorem compressInto_draws (bytes : List Byte) (s : State) : (compressInto bytes s).draws = s.draws := rfl

/-! ### After starting a context -/

@[simp] theorem startContext_h (s : State) : (startContext s).h = iv := rfl
@[simp] theorem startContext_buf (s : State) : (startContext s).buf = s.buf := rfl
@[simp] theorem startContext_nstaged (s : State) : (startContext s).nstaged = 0 := rfl
@[simp] theorem startContext_total (s : State) : (startContext s).total = 0 := rfl
@[simp] theorem startContext_phase (s : State) : (startContext s).phase = .absorbing := rfl
@[simp] theorem startContext_fault (s : State) : (startContext s).fault = s.fault := rfl
@[simp] theorem startContext_host (s : State) : (startContext s).host = s.host := rfl
@[simp] theorem startContext_responses (s : State) : (startContext s).responses = s.responses := rfl
@[simp] theorem startContext_draws (s : State) : (startContext s).draws = s.draws := rfl

/-! ### After finishing a context -/

@[simp] theorem finishContext_h (s : State) : (finishContext s).h = finalHash s := rfl
@[simp] theorem finishContext_buf (s : State) : (finishContext s).buf = s.buf := rfl
@[simp] theorem finishContext_nstaged (s : State) : (finishContext s).nstaged = s.nstaged := rfl
@[simp] theorem finishContext_total (s : State) : (finishContext s).total = s.total := rfl
@[simp] theorem finishContext_phase (s : State) : (finishContext s).phase = .finalized := rfl
@[simp] theorem finishContext_fault (s : State) : (finishContext s).fault = s.fault := rfl
@[simp] theorem finishContext_host (s : State) : (finishContext s).host = s.host := rfl
@[simp] theorem finishContext_responses (s : State) : (finishContext s).responses = s.responses := rfl
@[simp] theorem finishContext_draws (s : State) : (finishContext s).draws = s.draws := rfl

/-! ### After reset -/

@[simp] theorem takeReset_h (s : State) : (takeReset s).h = Config.powerOnHash s.draws := rfl
@[simp] theorem takeReset_buf (s : State) : (takeReset s).buf = Config.powerOnBuf s.draws := rfl
@[simp] theorem takeReset_nstaged (s : State) : (takeReset s).nstaged = Config.powerOnStaged s.draws := rfl
@[simp] theorem takeReset_total (s : State) : (takeReset s).total = Config.powerOnTotal s.draws := rfl
@[simp] theorem takeReset_phase (s : State) : (takeReset s).phase = .none := rfl
@[simp] theorem takeReset_fault (s : State) : (takeReset s).fault = .ok := rfl
@[simp] theorem takeReset_host (s : State) : (takeReset s).host = s.host := rfl
@[simp] theorem takeReset_responses (s : State) : (takeReset s).responses = s.responses := rfl
@[simp] theorem takeReset_draws (s : State) : (takeReset s).draws = s.draws.next := rfl

/-! ### After absorbing a chunk (41_hasher.md R141: PHASE stays, FAULT is untouched) -/

@[simp] theorem absorb_phase (data : List Byte) (s : State) : (absorb data s).phase = s.phase := by
  simp only [absorb]; split <;> rfl
@[simp] theorem absorb_fault (data : List Byte) (s : State) : (absorb data s).fault = s.fault := by
  simp only [absorb]; split <;> rfl
@[simp] theorem absorb_host (data : List Byte) (s : State) : (absorb data s).host = s.host := by
  simp only [absorb]; split <;> rfl
@[simp] theorem absorb_responses (data : List Byte) (s : State) : (absorb data s).responses = s.responses := by
  simp only [absorb]; split <;> rfl
@[simp] theorem absorb_draws (data : List Byte) (s : State) : (absorb data s).draws = s.draws := by
  simp only [absorb]; split <;> rfl

/-! ### After a draw of the undefined bytes of BUF (10_state.md R36) -/

@[simp] theorem redrawBuf_h (draw : Vector Byte 64) (s : State) : (redrawBuf draw s).h = s.h := rfl
@[simp] theorem redrawBuf_buf (draw : Vector Byte 64) (s : State) : (redrawBuf draw s).buf = memWrite draw 0 (stagedBytes s) := rfl
@[simp] theorem redrawBuf_nstaged (draw : Vector Byte 64) (s : State) : (redrawBuf draw s).nstaged = s.nstaged := rfl
@[simp] theorem redrawBuf_total (draw : Vector Byte 64) (s : State) : (redrawBuf draw s).total = s.total := rfl
@[simp] theorem redrawBuf_phase (draw : Vector Byte 64) (s : State) : (redrawBuf draw s).phase = s.phase := rfl
@[simp] theorem redrawBuf_fault (draw : Vector Byte 64) (s : State) : (redrawBuf draw s).fault = s.fault := rfl
@[simp] theorem redrawBuf_host (draw : Vector Byte 64) (s : State) : (redrawBuf draw s).host = s.host := rfl
@[simp] theorem redrawBuf_responses (draw : Vector Byte 64) (s : State) : (redrawBuf draw s).responses = s.responses := rfl
@[simp] theorem redrawBuf_draws (draw : Vector Byte 64) (s : State) : (redrawBuf draw s).draws = s.draws := rfl

/-! ### The staged bytes -/

@[simp] theorem stagedBytes_respond (f : FaultCode) (data : List Byte) (s : State) :
    stagedBytes (respond f data s) = stagedBytes s := rfl

@[simp] theorem stagedBytes_length (s : State) : (stagedBytes s).length = s.nstaged.toNat := by
  have h := s.nstaged.isLt
  simp [stagedBytes, memRead]
  omega

/-! ### At reset -/

@[simp] theorem reset_phase : State.reset.phase = .none := rfl
@[simp] theorem reset_fault : State.reset.fault = .ok := rfl
@[simp] theorem reset_host : State.reset.host = [] := rfl
@[simp] theorem reset_responses : State.reset.responses = [] := rfl

end Sys2Proof.Machine
end

