-- ==== Sys2Proof/Laws/Ops.lean ====
section
/-! SUPPORT. Once for each shared operation, and for a step, everything it can answer; later proofs cite these and do not unfold the operations. -/

namespace Sys2Proof.Machine

/-- With FAULT = 0 a command goes on to its effect (R183). -/
theorem unlessFaulted_of_ok {s : State} (h : s.fault = .ok) (effect : Result) : unlessFaulted s effect = effect := by
  simp [unlessFaulted, h]

/-- With FAULT ≠ 0 a command answers FAULT and nothing else (R185). -/
theorem unlessFaulted_of_faulted {s : State} (h : s.fault ≠ .ok) (effect : Result) :
    unlessFaulted s effect = .next (respond s.fault [] s) := by
  simp [unlessFaulted, h, stickyAnswer]

/-- The sticky answer, or the effect. -/
theorem unlessFaulted_cases {s t : State} {effect : Result} (h : unlessFaulted s effect = .next t) :
    (s.fault ≠ .ok ∧ t = respond s.fault [] s) ∨ (s.fault = .ok ∧ effect = .next t) := by
  by_cases hf : s.fault = .ok
  · exact .inr ⟨hf, by rwa [unlessFaulted_of_ok hf] at h⟩
  · rw [unlessFaulted_of_faulted hf] at h
    exact .inl ⟨hf, by injection h with h; exact h.symm⟩

/-- Looking at FAULT twice is looking at it once. -/
theorem unlessFaulted_idem (s : State) (effect : Result) :
    unlessFaulted s (unlessFaulted s effect) = unlessFaulted s effect := by
  unfold unlessFaulted; split <;> rfl

/-- Everything the phase checks can answer (R183 points 4 and 5). -/
theorem inContext_cases {s t : State} {effect : Result} (h : inContext s effect = .next t) :
    (s.phase = .none ∧ raiseFault .noContext s = .next t) ∨
    (s.phase = .finalized ∧ raiseFault .finalized s = .next t) ∨ (s.phase = .absorbing ∧ effect = .next t) := by
  unfold inContext at h
  split at h <;> simp_all

theorem inContext_of_absorbing {s : State} (h : s.phase = .absorbing) (effect : Result) : inContext s effect = effect := by
  simp [inContext, h]

/-- Fault entry always answers, with only FAULT and the response written (R184). -/
theorem raiseFault_eq (code : FaultCode) (s : State) :
    raiseFault code s = .next { s with fault := code, responses := s.responses ++ [⟨statusWord code, []⟩] } := rfl

/-- A success always answers, with only the response written. -/
theorem succeed_eq (data : List Byte) (s : State) :
    succeed data s = .next { s with responses := s.responses ++ [⟨0, data⟩] } := rfl

/-- BUF holds values at the staged bytes and nowhere else (R22, R36). -/
theorem bufValue_eq (s : State) (i : Fin 64) : bufValue s i = (stagedBytes s)[i.val]? := by
  have hn := s.nstaged.isLt
  simp only [bufValue]
  split
  · rw [List.getElem?_eq_getElem (by simpa)]
    simp [stagedBytes, memRead]
  · rw [List.getElem?_eq_none (by simp; omega)]

/-- A draw of the undefined bytes leaves the staged bytes as they are. -/
@[simp] theorem stagedBytes_redrawBuf (draw : Vector Byte 64) (s : State) :
    stagedBytes (redrawBuf draw s) = stagedBytes s := by
  have hn := s.nstaged.isLt
  rw [stagedBytes, redrawBuf_buf, redrawBuf_nstaged, memRead_zero, memWrite_toList _ _ _ (by simp; omega)]
  simp

/-- A draw of the undefined bytes changes no value that BUF holds. -/
@[simp] theorem bufValue_redrawBuf (draw : Vector Byte 64) (s : State) (i : Fin 64) :
    bufValue (redrawBuf draw s) i = bufValue s i := by
  rw [bufValue_eq, bufValue_eq, stagedBytes_redrawBuf]

/-- Everything INIT can do. -/
theorem execInit_cases {s t : State} (h : execInit s = .next t) :
    (s.fault ≠ .ok ∧ t = respond s.fault [] s) ∨ (s.fault = .ok ∧ t = respond .ok [] (startContext s)) := by
  refine (unlessFaulted_cases h).imp id fun ⟨hf, he⟩ => ⟨hf, ?_⟩
  injection he with he
  exact he.symm

/-- Everything UPDATE can do. -/
theorem execUpdate_cases {d : List Byte} {s t : State} (h : execUpdate d s = .next t) :
    (s.fault ≠ .ok ∧ t = respond s.fault [] s) ∨
    (s.fault = .ok ∧ ∃ code, t = respond code [] { s with fault := code } ∧
      ((s.phase = .none ∧ code = .noContext) ∨ (s.phase = .finalized ∧ code = .finalized) ∨
        (s.phase = .absorbing ∧ code = .length ∧ Config.lengthLimit ≤ messageLength s + d.length))) ∨
    (s.fault = .ok ∧ s.phase = .absorbing ∧ messageLength s + d.length < Config.lengthLimit ∧
      t = respond .ok [] (absorb d s)) := by
  rcases unlessFaulted_cases h with h | ⟨hf, h⟩
  · exact .inl h
  rcases inContext_cases h with ⟨hp, h⟩ | ⟨hp, h⟩ | ⟨hp, h⟩
  · injection h with h
    exact .inr (.inl ⟨hf, _, h.symm, .inl ⟨hp, rfl⟩⟩)
  · injection h with h
    exact .inr (.inl ⟨hf, _, h.symm, .inr (.inl ⟨hp, rfl⟩)⟩)
  · split at h <;> injection h with h
    · exact .inr (.inl ⟨hf, _, h.symm, .inr (.inr ⟨hp, rfl, ‹_›⟩)⟩)
    · exact .inr (.inr ⟨hf, hp, by omega, h.symm⟩)

/-- Everything FINALIZE can do. -/
theorem execFinalize_cases {s t : State} (h : execFinalize s = .next t) :
    (s.fault ≠ .ok ∧ t = respond s.fault [] s) ∨
    (s.fault = .ok ∧ ∃ code, t = respond code [] { s with fault := code } ∧
      ((s.phase = .none ∧ code = .noContext) ∨ (s.phase = .finalized ∧ code = .finalized))) ∨
    (s.fault = .ok ∧ s.phase = .absorbing ∧ t = respond .ok (digest (finalHash s)) (finishContext s)) := by
  rcases unlessFaulted_cases h with h | ⟨hf, h⟩
  · exact .inl h
  rcases inContext_cases h with ⟨hp, h⟩ | ⟨hp, h⟩ | ⟨hp, h⟩ <;> injection h with h
  · exact .inr (.inl ⟨hf, _, h.symm, .inl ⟨hp, rfl⟩⟩)
  · exact .inr (.inl ⟨hf, _, h.symm, .inr ⟨hp, rfl⟩⟩)
  · exact .inr (.inr ⟨hf, hp, h.symm⟩)

/-- Everything HASH can do. -/
theorem execHash_cases {m : List Byte} {s t : State} (h : execHash m s = .next t) :
    (s.fault ≠ .ok ∧ t = respond s.fault [] s) ∨
    (s.fault = .ok ∧ Config.lengthLimit ≤ m.length ∧ t = respond .length [] { s with fault := .length }) ∨
    (s.fault = .ok ∧ m.length < Config.lengthLimit ∧ t = respond .ok (digest (hashMessage m)) s) := by
  rcases unlessFaulted_cases h with h | ⟨hf, h⟩
  · exact .inl h
  split at h <;> injection h with h
  · exact .inr (.inl ⟨hf, ‹_›, h.symm⟩)
  · exact .inr (.inr ⟨hf, by omega, h.symm⟩)

/-- Everything COMPRESS can do. -/
theorem execCompress_cases {sin : HashState} {blocks : List Byte} {s t : State} (h : execCompress sin blocks s = .next t) :
    (s.fault ≠ .ok ∧ t = respond s.fault [] s) ∨
    (s.fault = .ok ∧ wholeBlocks blocks = false ∧ t = respond .operand [] { s with fault := .operand }) ∨
    (s.fault = .ok ∧ wholeBlocks blocks = true ∧ t = respond .ok (stateBytes (compressBlocks sin blocks)) s) := by
  rcases unlessFaulted_cases h with h | ⟨hf, h⟩
  · exact .inl h
  split at h <;> injection h with h
  · exact .inr (.inr ⟨hf, ‹_›, h.symm⟩)
  · exact .inr (.inl ⟨hf, by simp_all, h.symm⟩)

/-- Every instruction answers a next state, from every state: no meaning stops. -/
theorem exec_answers (i : Instr) (s : State) : ∃ t, exec i s = .next t := by
  by_cases hf : s.fault = .ok
  · cases i <;> simp only [exec, execInit, execUpdate, execFinalize, execHash, execCompress, unlessFaulted_of_ok hf,
      inContext, raiseFault, succeed] <;> (try split) <;> (try split) <;> exact ⟨_, rfl⟩
  · cases i <;> exact ⟨_, unlessFaulted_of_faulted hf _⟩

/-- Every meaning looks at FAULT first. -/
theorem exec_of_faulted {s : State} (h : s.fault ≠ .ok) (i : Instr) : exec i s = .next (respond s.fault [] s) := by
  cases i <;> exact unlessFaulted_of_faulted h _

/-- Accepting a command that decodes to an instruction is running it. -/
theorem accept_of_command {c : Command} {i : Instr} (h : decode c = .command i) (s : State) : accept c s = exec i s := by
  by_cases hf : s.fault = .ok
  · simp [accept, unlessFaulted_of_ok hf, h, runDecoded]
  · simp [accept, unlessFaulted_of_faulted hf, exec_of_faulted hf]

/-- Everything a step that goes on can be: idle, a command accepted, or reset. -/
theorem step_cases {s t : State} (h : step s = .next t) :
    (s.host = [] ∧ t = s) ∨
    (∃ c rest, s.host = .command c :: rest ∧ accept c { s with host := rest } = .next t) ∨
    (∃ rest, s.host = .reset :: rest ∧ t = takeReset { s with host := rest }) := by
  unfold step at h
  split at h
  · injection h with h; exact .inl ⟨‹_›, h.symm⟩
  · rename_i move rest hh
    cases move with
    | command c => exact .inr (.inl ⟨c, rest, hh, h⟩)
    | reset => injection h with h; exact .inr (.inr ⟨rest, hh, h.symm⟩)
    | resetDuring c => simp [takeMove] at h
    | overlap c d => simp [takeMove] at h

/-- Every instruction leaves the core's draws to reset. -/
theorem exec_draws {i : Instr} {s t : State} (h : exec i s = .next t) : t.draws = s.draws := by
  cases i with
  | init => rcases execInit_cases h with ⟨-, rfl⟩ | ⟨-, rfl⟩ <;> rfl
  | update d => rcases execUpdate_cases h with ⟨-, rfl⟩ | ⟨-, code, rfl, -⟩ | ⟨-, -, -, rfl⟩ <;> simp
  | finalize => rcases execFinalize_cases h with ⟨-, rfl⟩ | ⟨-, code, rfl, -⟩ | ⟨-, -, rfl⟩ <;> rfl
  | hash m => rcases execHash_cases h with ⟨-, rfl⟩ | ⟨-, -, rfl⟩ | ⟨-, -, rfl⟩ <;> rfl
  | compress sin blocks => rcases execCompress_cases h with ⟨-, rfl⟩ | ⟨-, -, rfl⟩ | ⟨-, -, rfl⟩ <;> rfl

/-- A step with a command at the head accepts it. -/
theorem step_command {s : State} {c : Command} {rest : List HostMove} (h : s.host = .command c :: rest) :
    step s = accept c { s with host := rest } := by
  simp [step, h, takeMove]

/-- Everything accepting a command can do: the sticky answer, a decoding fault, or the instruction. -/
theorem accept_cases {c : Command} {s t : State} (h : accept c s = .next t) :
    (s.fault ≠ .ok ∧ t = respond s.fault [] s) ∨
    (s.fault = .ok ∧ decode c = .illegal ∧ t = respond .illegal [] { s with fault := .illegal }) ∨
    (s.fault = .ok ∧ decode c = .badOperand ∧ t = respond .operand [] { s with fault := .operand }) ∨
    (s.fault = .ok ∧ ∃ i, decode c = .command i ∧ exec i s = .next t) := by
  rcases unlessFaulted_cases h with h | ⟨hf, h⟩
  · exact .inl h
  cases hd : decode c with
  | illegal => rw [hd] at h; injection h with h; exact .inr (.inl ⟨hf, rfl, h.symm⟩)
  | badOperand => rw [hd] at h; injection h with h; exact .inr (.inr (.inl ⟨hf, rfl, h.symm⟩))
  | command i => rw [hd] at h; exact .inr (.inr (.inr ⟨hf, i, rfl, h⟩))

/-- A core takes draws of its own lane only (log entry 2). -/
theorem step_draws_core {s t : State} (h : step s = .next t) : t.draws.core = s.draws.core := by
  rcases step_cases h with ⟨-, rfl⟩ | ⟨c, rest, -, h⟩ | ⟨rest, -, rfl⟩
  · rfl
  · rcases accept_cases h with ⟨-, rfl⟩ | ⟨-, -, rfl⟩ | ⟨-, -, rfl⟩ | ⟨-, i, -, h⟩
    · rfl
    · rfl
    · rfl
    · rw [exec_draws h]
  · rfl

end Sys2Proof.Machine
end

