-- ==== Sys2Proof/Laws/PerInstr.lean ====
section
/-! SUPPORT. Per-instruction statements about the syntax: the command word of each instruction is a legal one and its payload length is as R73 says. -/

namespace Sys2Proof.Laws.Encoding

/-- The command word has RSV = 0 and an OP of 1 to 5, and the payload of a well-formed instruction has a legal length (R72, R73). -/
def Statement (i : Instr) : Prop :=
  rsvField (encode i).cmd = 0 ∧ 1 ≤ (opField (encode i).cmd).toNat ∧ (opField (encode i).cmd).toNat ≤ 5 ∧
    (i.wf = true → (opField (encode i).cmd).toNat = 5 → Machine.compressLength (encode i).payload.length = true)

theorem init : Statement .init := by unfold Statement; decide

theorem update (data : List Byte) : Statement (.update data) := by simp [Statement, encode, rsvField, opField]

theorem finalize : Statement .finalize := by unfold Statement; decide

theorem hash (message : List Byte) : Statement (.hash message) := by simp [Statement, encode, rsvField, opField]

theorem compress (sin : HashState) (blocks : List Byte) : Statement (.compress sin blocks) := by
  have h : (Machine.stateBytes sin).length = 32 := rfl
  simp [Statement, encode, rsvField, opField, Instr.wf, Machine.wholeBlocks, Machine.compressLength, h]
  omega

end Sys2Proof.Laws.Encoding
end

