-- ==== Sys2Proof/Laws/Runs.lean ====
section
/-! SUPPORT. Runs of the core: the host's run, and how runs split. -/

namespace Sys2Proof.Safety

open Sys2Proof Sys2Proof.Machine

/-- `runSteps` is the host's own `Host.Core.run` of this core. -/
theorem runSteps_eq_run (k : Nat) (s : State) : runSteps k s = Host.Core.run Sys2Proof.core k s := by
  induction k generalizing s with
  | zero => rfl
  | succ k ih =>
    have hc : Sys2Proof.core.step s = step s := rfl
    rw [runSteps]
    cases hs : step s with
    | next t => rw [hs] at hc; simp only [Host.Core.run, hc, ih]; rfl
    | fault r => rw [hs] at hc; simp only [Host.Core.run, hc]; rfl
    | refused r => rw [hs] at hc; simp only [Host.Core.run, hc]; rfl

/-- After `j` steps that go on, the next `k` are a run from where they ended. -/
theorem runSteps_add {j : Nat} {s t : State} (k : Nat) (h : runSteps j s = .next t) :
    runSteps (j + k) s = runSteps k t := by
  induction j generalizing s with
  | zero => injection h with h; subst h; rw [Nat.zero_add]
  | succ j ih =>
    rw [Nat.succ_add, runSteps]
    rw [runSteps] at h
    cases hs : step s with
    | next u => rw [hs] at h; exact ih h
    | fault r => rw [hs] at h; cases h
    | refused r => rw [hs] at h; cases h

theorem runSteps_one {s t : State} (h : step s = .next t) : runSteps 1 s = .next t := by simp [runSteps, h]

end Sys2Proof.Safety
end

