-- ==== Sys2Proof/Tests/Slice0.lean ====
section
/-! SUPPORT. Tests. Expected values are spec/95_test_vectors.md's (named V<n> or P<n>) or worked out by hand from the rule named. Then one witness for the hypotheses of each statement that has any. -/

namespace Sys2Proof.Tests

open Sys2Proof Sys2Proof.Machine Sys2Proof.Safety

/-! ## Small states -/

/-- A buffer that begins with `bytes`; the others hold 0xEE, which nothing may read. -/
def bufOf (bytes : List Byte) : Vector Byte 64 := memWrite (Vector.replicate 64 0xEE) 0 bytes

/-- A core in a phase, with the staged bytes, TOTAL, FAULT and host stream given and H = IV. -/
def coreIn (phase : Phase) (staged : List Byte) (total : U64) (fault : FaultCode) (host : List HostMove) : State where
  h := iv
  buf := bufOf staged
  nstaged := BitVec.ofNat 6 staged.length
  total := total
  phase := phase
  fault := fault
  host := host
  responses := []
  draws := ⟨0, 7⟩

/-- A context that has absorbed nothing. -/
def fresh : State := coreIn .absorbing [] 0 .ok []

/-- n copies of the letter a. -/
def as (n : Nat) : List Byte := List.replicate n 0x61

/-- What an answer shows, where it is a next state. -/
def shown (f : State → Bool) (r : Result) : Bool :=
  match r with
  | .next t => f t
  | .fault _ => false
  | .refused _ => false

/-- The last response. -/
def lastIs (status : Word) (rdata : List Byte) (t : State) : Bool := t.responses.getLast? == some ⟨status, rdata⟩

/-! ## Well-formedness: an ill-formed term for each check -/

theorem test_wf_refuses_no_block : (Instr.compress iv []).wf = false := by decide
theorem test_wf_refuses_part_block : (Instr.compress iv (zeros 65)).wf = false := by decide
theorem test_wf_accepts_two_blocks : (Instr.compress iv (zeros 128)).wf = true := by decide +kernel

/-! ## Decoding: words written out from R71 and R72, OP in bits 3..0 and RSV in bits 31..4 -/

theorem test_decode_init : decode ⟨0b00000000000000000000000000000001, []⟩ = .command .init := by decide
theorem test_decode_update :
    decode ⟨0b00000000000000000000000000000010, [0x61, 0x62, 0x63]⟩ = .command (.update [0x61, 0x62, 0x63]) := by decide
theorem test_decode_finalize : decode ⟨0b00000000000000000000000000000011, []⟩ = .command .finalize := by decide
theorem test_decode_hash : decode ⟨0b00000000000000000000000000000100, [0x78]⟩ = .command (.hash [0x78]) := by decide

/-- P6: the payload's words are big-endian, the state first. -/
theorem test_decode_compress :
    decode ⟨0b00000000000000000000000000000101,
      [0x6a, 0x09, 0xe6, 0x67, 0xbb, 0x67, 0xae, 0x85, 0x3c, 0x6e, 0xf3, 0x72, 0xa5, 0x4f, 0xf5, 0x3a,
       0x51, 0x0e, 0x52, 0x7f, 0x9b, 0x05, 0x68, 0x8c, 0x1f, 0x83, 0xd9, 0xab, 0x5b, 0xe0, 0xcd, 0x19] ++
      (0x80 :: zeros 63)⟩ = .command (.compress iv (0x80 :: zeros 63)) := by decide

/-- V26, V20: illegal words; V14, V20: payloads of a wrong length. -/
theorem test_decode_illegal :
    [(0x00000000 : Word), 0x00000006, 0x0000000F, 0x80000001, 0x00000011].map (fun w => decode ⟨w, []⟩) =
      List.replicate 5 .illegal := by decide
theorem test_decode_bad_operand :
    [0, 32, 33, 97].map (fun n => decode ⟨0x00000005, zeros n⟩) = List.replicate 4 .badOperand ∧
    decode ⟨0x00000001, [0]⟩ = .badOperand ∧ decode ⟨0x00000003, [0x78]⟩ = .badOperand := by decide

/-- The table's five rows, read as the host reads them; each runs as the first instruction after reset. -/
theorem test_table_words :
    [1, 2, 3, 4, 5].map (decodeTableWord 32) = [some .init, some (.update []), some .finalize, some (.hash []),
      some (.compress ⟨0, 0, 0, 0, 0, 0, 0, 0⟩ (zeros 64))] ∧ decodeTableWord 32 6 = none ∧
    decodeTableWord 40 0x7800000002 = some (.update [0x78]) := by decide

/-- From reset INIT, HASH and COMPRESS succeed and UPDATE and FINALIZE fault with E_NO_CONTEXT (V20, V23, V28, V21). -/
theorem test_table_words_run :
    [1, 2, 3, 4, 5].map (fun w => shown (fun t => t.fault == .ok) (step (State.reset.withFetchWord 32 w))) =
      [true, false, false, true, true] := by decide

/-! ## Words and bytes (V10, V11, R51 to R53) -/

theorem test_sigma :
    bigSigma0 0x12345678 = 0x66146474 ∧ bigSigma1 0x12345678 = 0x3561ABDA ∧
    smallSigma0 0x12345678 = 0xE7FCE6EE ∧ smallSigma1 0x12345678 = 0xA1F78649 := by decide
theorem test_ch_maj :
    ch 0x510E527F 0x9B05688C 0x1F83D9AB = 0x1F85C98C ∧ maj 0x6A09E667 0xBB67AE85 0x3C6EF372 = 0x3A6FE667 := by decide
theorem test_big_endian :
    be32 [0x61, 0x62, 0x63, 0x80] 0 = 0x61626380 ∧ be32bytes 0xBA7816BF = [0xBA, 0x78, 0x16, 0xBF] ∧
    be64bytes 24 = [0, 0, 0, 0, 0, 0, 0, 0x18] := by decide
/-- V16: the padding of 55 and of 56 bytes. -/
theorem test_pad :
    pad (as 55) 440 = as 55 ++ [0x80, 0, 0, 0, 0, 0, 0, 0x01, 0xb8] ∧
    pad (as 56) 448 = as 56 ++ (0x80 :: zeros 63) ++ [0, 0, 0, 0, 0, 0, 0x01, 0xc0] := by decide

/-! ## The five commands, one step each -/

/-- V20: INIT drops what was staged and opens a context at IV. -/
theorem test_init : shown (fun t => t.h == iv && t.nstaged == 0 && t.total == 0 && t.phase == .absorbing && lastIs 0 [] t)
    (exec .init (coreIn .finalized (as 3) 64 .ok [])) = true := by decide
/-- V25: a faulted core answers its code to INIT and does nothing. -/
theorem test_init_sticky : shown (fun t => t.phase == .none && t.fault == .noContext && lastIs 3 [] t)
    (exec .init (coreIn .none [] 0 .noContext [])) = true := by decide

/-- V18: the 64th byte fills the buffer, which is compressed. -/
theorem test_update_fills : shown (fun t => t.nstaged == 0 && t.total == 64 && t.h ==
      ⟨0xDF5BB81C, 0xE81E0626, 0xFB45A894, 0x4FD40F31, 0xB25E6816, 0xD6D499C1, 0xAB904929, 0x00635E66⟩)
    (exec (.update (as 1)) (coreIn .absorbing (as 63) 0 .ok [])) = true := by decide +kernel
/-- P4: 130 bytes after 63: one block from the buffer, two from the payload, one byte staged. -/
theorem test_update_spans : shown (fun t => t.nstaged == 1 && t.total == 192 && stagedBytes t == as 1 && t.h ==
      ⟨0x76EBAE86, 0x127C8D5D, 0x50A2CA5B, 0x497D56BD, 0x46093F9A, 0x41DF7CA0, 0xEBFD435D, 0x270C4970⟩)
    (exec (.update (as 130)) (coreIn .absorbing (as 63) 0 .ok [])) = true := by decide +kernel

/-- P1: "abc", the one-block path. -/
theorem test_finalize_abc : shown (fun t => t.phase == .finalized && t.nstaged == 3 && lastIs 0
      [0xba, 0x78, 0x16, 0xbf, 0x8f, 0x01, 0xcf, 0xea, 0x41, 0x41, 0x40, 0xde, 0x5d, 0xae, 0x22, 0x23,
       0xb0, 0x03, 0x61, 0xa3, 0x96, 0x17, 0x7a, 0x9c, 0xb4, 0x10, 0xff, 0x61, 0xf2, 0x00, 0x15, 0xad] t)
    (exec .finalize (coreIn .absorbing [0x61, 0x62, 0x63] 0 .ok [])) = true := by decide +kernel
/-- V17: 56 bytes, the smallest two-block tail. -/
theorem test_finalize_two_blocks : shown (fun t => t.total == 0 && lastIs 0
      [0xb3, 0x54, 0x39, 0xa4, 0xac, 0x6f, 0x09, 0x48, 0xb6, 0xd6, 0xf9, 0xe3, 0xc6, 0xaf, 0x0f, 0x5f,
       0x59, 0x0c, 0xe2, 0x0f, 0x1b, 0xde, 0x70, 0x90, 0xef, 0x79, 0x70, 0x68, 0x6e, 0xc6, 0x73, 0x8a] t)
    (exec .finalize (coreIn .absorbing (as 56) 0 .ok [])) = true := by decide +kernel

/-- V1: the empty message, in a core without a context. -/
theorem test_hash_empty : shown (fun t => t.phase == .none && lastIs 0
      [0xe3, 0xb0, 0xc4, 0x42, 0x98, 0xfc, 0x1c, 0x14, 0x9a, 0xfb, 0xf4, 0xc8, 0x99, 0x6f, 0xb9, 0x24,
       0x27, 0xae, 0x41, 0xe4, 0x64, 0x9b, 0x93, 0x4c, 0xa4, 0x95, 0x99, 0x1b, 0x78, 0x52, 0xb8, 0x55] t)
    (exec (.hash []) (coreIn .none [] 0 .ok [])) = true := by decide +kernel
/-- V23: HASH "xyz" in the middle of a message leaves it alone. -/
theorem test_hash_private : shown (fun t => stagedBytes t == [0x61, 0x62] && t.phase == .absorbing && t.h == iv && lastIs 0
      [0x36, 0x08, 0xbc, 0xa1, 0xe4, 0x4e, 0xa6, 0xc4, 0xd2, 0x68, 0xeb, 0x6d, 0xb0, 0x22, 0x60, 0x26,
       0x98, 0x92, 0xc0, 0xb4, 0x2b, 0x86, 0xbb, 0xf1, 0xe7, 0x7a, 0x6f, 0xa1, 0x6c, 0x3c, 0x92, 0x82] t)
    (exec (.hash [0x78, 0x79, 0x7a]) (coreIn .absorbing [0x61, 0x62] 0 .ok [])) = true := by decide +kernel

/-- V13: an all-zero block is legal. -/
theorem test_compress_zeros : shown (lastIs 0
      [0xDA, 0x56, 0x98, 0xBE, 0x17, 0xB9, 0xB4, 0x69, 0x62, 0x33, 0x57, 0x99, 0x77, 0x9F, 0xBE, 0xCA,
       0x8C, 0xE5, 0xD4, 0x91, 0xC0, 0xD2, 0x62, 0x43, 0xBA, 0xFE, 0xF9, 0xEA, 0x18, 0x37, 0xA9, 0xD8])
    (exec (.compress iv (zeros 64)) (coreIn .finalized [] 0 .ok [])) = true := by decide +kernel
/-- V14: a COMPRESS payload with no block raises E_OPERAND. -/
theorem test_compress_no_block : shown (fun t => t.fault == .operand && lastIs 2 [] t)
    (step (coreIn .none [] 0 .ok [.command ⟨5, zeros 32⟩])) = true := by decide

/-! ## Faults and reset -/

/-- V24: E_ILLEGAL before E_OPERAND, E_OPERAND before E_FINALIZED and E_NO_CONTEXT. -/
theorem test_priority :
    shown (lastIs 1 []) (step (coreIn .absorbing [] 0 .ok [.command ⟨0x00000013, [1]⟩])) = true ∧
    shown (lastIs 2 []) (step (coreIn .finalized [] 0 .ok [.command ⟨3, [1]⟩])) = true ∧
    shown (lastIs 2 []) (step (coreIn .none [] 0 .ok [.command ⟨3, [0x78]⟩])) = true := by decide

/-- V27: the message that would reach 2^61 bytes, and the one byte less that does not. -/
theorem test_length_limit :
    shown (fun t => t.fault == .length && t.nstaged == 63 && lastIs 5 [] t)
      (exec (.update (as 1)) (coreIn .absorbing (as 63) 0x1FFFFFFFFFFFFFC0 .ok [])) = true ∧
    shown (lastIs 0 []) (exec (.update []) (coreIn .absorbing (as 63) 0x1FFFFFFFFFFFFFC0 .ok [])) = true ∧
    bitLength (messageLength (coreIn .absorbing (as 63) 0x1FFFFFFFFFFFFFC0 .ok [])) = 0xFFFFFFFFFFFFFFF8 := by decide

/-- V25, R186: reset clears the fault. -/
theorem test_reset_clears : shown (fun t => t.fault == .ok && t.phase == .none && t.responses == [])
    (step (coreIn .absorbing (as 5) 0 .length [.reset])) = true := by decide

/-! ## Witnesses: concrete values that meet the hypotheses of each statement -/

/-- A stream with one command. -/
def one (cmd : Word) (payload : List Byte) : List HostMove := [.command ⟨cmd, payload⟩]

theorem witness_DecodeOfEncode : (Instr.compress iv (zeros 64)).wf = true := by decide

theorem witness_EncodeOfDecode : decode ⟨5, stateBytes iv ++ zeros 64⟩ = .command (.compress iv (zeros 64)) := by decide

theorem witness_IllegalWordsFault :
    (coreIn .none [] 0 .ok (one 6 [])).fault = .ok ∧ (coreIn .none [] 0 .ok (one 6 [])).host = .command ⟨6, []⟩ :: [] ∧
    decode ⟨6, []⟩ = .illegal ∧ decode ⟨5, zeros 96⟩ ≠ .illegal ∧ decode ⟨0x10, []⟩ = .illegal := by decide

theorem witness_PayloadLengthsDecide_legal : LegalWord 5 ∧ LegalLength 5 (zeros 96).length := by
  refine ⟨by simp [LegalWord], by simp [LegalLength]; exact ⟨1, by decide, rfl⟩⟩

theorem witness_PayloadLengthsDecide_bad :
    LegalWord 5 ∧ ¬ LegalLength 5 (zeros 95).length ∧ (coreIn .none [] 0 .ok (one 5 (zeros 95))).fault = .ok ∧
    (coreIn .none [] 0 .ok (one 5 (zeros 95))).host = .command ⟨5, zeros 95⟩ :: [] := by
  refine ⟨by simp [LegalWord], ?_, rfl, rfl⟩
  intro h
  obtain ⟨k, h1, h2⟩ := h.2 rfl
  simp [zeros] at h2
  omega

theorem witness_CompressPayloadIsRead : 1 ≤ 1 ∧ (zeros 96).length = 32 + 64 * 1 := by decide

theorem witness_AssembledLinesDecode : wholeBlocks (formBytes (.joined (.text ['a', 'b', 'c']) (.copies 0 61))) = true := by decide

theorem witness_StepRunsDecodedInstr :
    (coreIn .none [] 0 .ok (one 1 [])).host = .command ⟨1, []⟩ :: [] ∧ decode ⟨1, []⟩ = .command .init ∧
    Instr.init.wf = true := by decide

theorem witness_IdleCoreHoldsState : fresh.host = [] := rfl

theorem witness_MovesWithoutOutcomeStop :
    (coreIn .none [] 0 .ok [.resetDuring ⟨1, []⟩]).host = .resetDuring ⟨1, []⟩ :: [] ∧
    (coreIn .none [] 0 .ok [.overlap ⟨1, []⟩ ⟨3, []⟩]).host = .overlap ⟨1, []⟩ ⟨3, []⟩ :: [] := by decide

theorem witness_OneResponsePerCommand :
    (coreIn .none [] 0 .ok (one 4 [])).host = .command ⟨4, []⟩ :: [] ∧
    (coreIn .none [] 0 .length (one 4 [])).host = .command ⟨4, []⟩ :: [] := by decide

/-- One command for each outcome of R183: sticky, the five faults and success. -/
theorem witness_ChecksInOrder :
    (coreIn .none [] 0 .operand (one 1 [])).fault ≠ .ok ∧
    (coreIn .none [] 0 .ok (one 1 [])).fault = .ok ∧ (coreIn .none [] 0 .ok (one 1 [])).host = .command ⟨1, []⟩ :: [] ∧
    shown (fun t => t.fault == .illegal) (step (coreIn .none [] 0 .ok (one 0 []))) = true ∧
    shown (fun t => t.fault == .operand) (step (coreIn .none [] 0 .ok (one 1 [0]))) = true ∧
    shown (fun t => t.fault == .noContext) (step (coreIn .none [] 0 .ok (one 2 []))) = true ∧
    shown (fun t => t.fault == .finalized) (step (coreIn .finalized [] 0 .ok (one 2 []))) = true ∧
    shown (fun t => t.fault == .length) (step (coreIn .absorbing [] 0x2000000000000000 .ok (one 2 []))) = true ∧
    shown (fun t => t.fault == .ok) (step (coreIn .absorbing [] 0 .ok (one 2 []))) = true := by decide

theorem witness_ChecksInOrder_effect : FirstFault ⟨1, []⟩ fresh .ok := by
  simp [FirstFault, LegalWord, LegalLength, NeedsContext, TooLong]

theorem witness_FaultEntryWritesOnlyFault :
    (coreIn .none [] 0 .ok (one 3 [])).fault = .ok ∧ (coreIn .none [] 0 .ok (one 3 [])).host = .command ⟨3, []⟩ :: [] ∧
    step (coreIn .none [] 0 .ok (one 3 [])) =
      .next { coreIn .none [] 0 .noContext [] with responses := [⟨3, []⟩] } := ⟨rfl, rfl, rfl⟩

theorem witness_StickyFaultAnswers :
    (coreIn .none [] 0 .illegal (one 1 [])).fault ≠ .ok ∧
    (coreIn .none [] 0 .illegal (one 1 [])).host = .command ⟨1, []⟩ :: [] := by decide

theorem witness_FaultedCoreIsQuiescent :
    (coreIn .none [] 0 .illegal (one 1 [] ++ one 2 [])).fault ≠ .ok ∧
    (coreIn .none [] 0 .illegal (one 1 [] ++ one 2 [])).host =
      [(⟨1, []⟩ : Command), ⟨2, []⟩].map HostMove.command ++ [] := by decide

/-- Both ways FAULT changes: entry from 0, and reset. -/
theorem witness_OnlyResetClearsFault :
    shown (fun t => t.fault != .ok) (step (coreIn .none [] 0 .ok (one 2 []))) = true ∧
    shown (fun t => t.fault != .length) (step (coreIn .none [] 0 .length [.reset])) = true := by decide

/-- All three ways PHASE changes. -/
theorem witness_PhaseWriters :
    shown (fun t => t.phase == .none) (step (coreIn .absorbing [] 0 .ok [.reset])) = true ∧
    shown (fun t => t.phase == .absorbing) (step (coreIn .none [] 0 .ok (one 1 []))) = true ∧
    shown (fun t => t.phase == .finalized) (step (coreIn .absorbing [] 0 .ok (one 3 []))) = true := by decide

/-- Commands that change H, NSTAGED or TOTAL, and BUF. -/
theorem witness_RegisterWriters :
    (coreIn .none [] 0 .ok (one 1 [])).host = .command ⟨1, []⟩ :: [] ∧
    shown (fun t => t.total != 64) (step (coreIn .absorbing (as 3) 64 .ok (one 1 []))) = true ∧
    shown (fun t => t.nstaged != 0 && t.buf != bufOf []) (step (coreIn .absorbing [] 0 .ok (one 2 [7]))) = true := by decide

theorem witness_RegisterWriters_h :
    shown (fun t => t.h != iv) (step (coreIn .absorbing [] 0 .ok (one 3 []))) = true := by decide +kernel

theorem witness_ResetBetweenCommands : (coreIn .finalized [] 0 .length [.reset]).host = .reset :: [] := rfl

/-- A state at the top of the invariant's range, and a step from it. -/
theorem witness_StepKeepsLifecycleInv :
    LifecycleInv (coreIn .absorbing (as 63) 0x1FFFFFFFFFFFFFC0 .ok (one 2 [])) ∧
    shown (fun t => t.phase == .absorbing) (step (coreIn .absorbing (as 63) 0x1FFFFFFFFFFFFFC0 .ok (one 2 []))) = true := by
  refine ⟨fun _ => ?_, ?_⟩ <;> decide

theorem witness_InitStartsContext :
    (coreIn .none [] 0 .ok []).fault = .ok ∧ (coreIn .absorbing (as 5) 64 .ok []).fault = .ok ∧
    (coreIn .finalized [] 0 .ok []).fault = .ok := by decide

/-- At the top of the length range, and with a payload that spans blocks. -/
theorem witness_UpdateAbsorbsChunk :
    Absorbing (coreIn .absorbing (as 63) 0x1FFFFFFFFFFFFFC0 .ok []) ∧
    (coreIn .absorbing (as 63) 0x1FFFFFFFFFFFFFC0 .ok []).total.toNat +
      (coreIn .absorbing (as 63) 0x1FFFFFFFFFFFFFC0 .ok []).nstaged.toNat + ([] : List Byte).length < 2 ^ 61 ∧
    Absorbing (coreIn .absorbing (as 63) 0 .ok []) ∧
    (coreIn .absorbing (as 63) 0 .ok []).total.toNat + (coreIn .absorbing (as 63) 0 .ok []).nstaged.toNat +
      (as 130).length < 2 ^ 61 := by
  refine ⟨⟨rfl, rfl⟩, ?_, ⟨rfl, rfl⟩, ?_⟩ <;> decide

/-- A byte below NSTAGED and one above the bytes written keep their values: both negated premises hold of them. -/
theorem witness_UpdateBufferFrame :
    exec (.update [7]) (coreIn .absorbing (as 3) 0 .ok []) = .next (respond .ok [] (absorb [7] (coreIn .absorbing (as 3) 0 .ok []))) ∧
    ¬ ((coreIn .absorbing (as 3) 0 .ok []).nstaged.toNat ≤ (2 : Fin 64).val ∧
      (2 : Fin 64).val < (coreIn .absorbing (as 3) 0 .ok []).nstaged.toNat +
        min [(7 : Byte)].length (64 - (coreIn .absorbing (as 3) 0 .ok []).nstaged.toNat)) ∧
    ¬ (64 ≤ (coreIn .absorbing (as 3) 0 .ok []).nstaged.toNat + [(7 : Byte)].length ∧
      (2 : Fin 64).val < ((coreIn .absorbing (as 3) 0 .ok []).nstaged.toNat + [(7 : Byte)].length) % 64) := by
  refine ⟨rfl, ?_, ?_⟩ <;> decide

theorem witness_EmptyUpdateChangesNothing :
    Absorbing (coreIn .absorbing (as 63) 0x1FFFFFFFFFFFFFC0 .ok []) ∧
    (coreIn .absorbing (as 63) 0x1FFFFFFFFFFFFFC0 .ok []).total.toNat +
      (coreIn .absorbing (as 63) 0x1FFFFFFFFFFFFFC0 .ok []).nstaged.toNat < 2 ^ 61 := by
  refine ⟨⟨rfl, rfl⟩, ?_⟩; decide

/-- V27 again: the first length that faults and the last that does not. -/
theorem witness_UpdateLengthLimit :
    Absorbing (coreIn .absorbing (as 63) 0x1FFFFFFFFFFFFFC0 .ok []) ∧
    2 ^ 61 ≤ (coreIn .absorbing (as 63) 0x1FFFFFFFFFFFFFC0 .ok []).total.toNat +
      (coreIn .absorbing (as 63) 0x1FFFFFFFFFFFFFC0 .ok []).nstaged.toNat + (as 1).length ∧
    (coreIn .absorbing (as 63) 0x1FFFFFFFFFFFFFC0 .ok []).total.toNat +
      (coreIn .absorbing (as 63) 0x1FFFFFFFFFFFFFC0 .ok []).nstaged.toNat + (as 0).length < 2 ^ 61 := by
  refine ⟨⟨rfl, rfl⟩, ?_, ?_⟩ <;> decide

theorem witness_ContextNeeded :
    (coreIn .none [] 0 .ok []).fault = .ok ∧ (coreIn .none [] 0 .ok []).phase = .none ∧
    (coreIn .finalized [] 0 .ok []).fault = .ok ∧ (coreIn .finalized [] 0 .ok []).phase = .finalized ∧
    (Instr.finalize = .finalize ∨ ∃ d, Instr.finalize = .update d) ∧
    (Instr.update [1] = .finalize ∨ ∃ d, Instr.update [1] = .update d) :=
  ⟨rfl, rfl, rfl, rfl, .inl rfl, .inr ⟨_, rfl⟩⟩

theorem witness_UpdatesConcatenate :
    Absorbing (coreIn .absorbing (as 3) 0 .ok []) ∧ (coreIn .absorbing (as 3) 0 .ok []).total.toNat +
      (coreIn .absorbing (as 3) 0 .ok []).nstaged.toNat + (as 60).length + (as 70).length < 2 ^ 61 := by
  refine ⟨⟨rfl, rfl⟩, ?_⟩; decide

theorem witness_FinalizeAnswersDigest :
    Absorbing (coreIn .absorbing (as 63) 0x1FFFFFFFFFFFFFC0 .ok []) ∧
    LifecycleInv (coreIn .absorbing (as 63) 0x1FFFFFFFFFFFFFC0 .ok []) := by
  refine ⟨⟨rfl, rfl⟩, fun _ => ?_⟩; decide

theorem witness_HashAnswersSha256 : (coreIn .none [] 0 .ok []).fault = .ok ∧ (as 3).length < 2 ^ 61 := by decide

theorem witness_HashLengthLimit :
    (coreIn .none [] 0 .ok []).fault = .ok ∧ 2 ^ 61 ≤ (List.replicate (2 ^ 61) (0 : Byte)).length :=
  ⟨rfl, by rw [List.length_replicate]⟩

theorem witness_CompressFoldsBlocks :
    (coreIn .none [] 0 .ok []).fault = .ok ∧ [zeros 64, as 64] ≠ [] ∧ ∀ b ∈ [zeros 64, as 64], b.length = 64 := by decide

theorem witness_CompressNeedsWholeBlocks :
    (coreIn .none [] 0 .ok []).fault = .ok ∧ (([] : List Byte) = [] ∨ ([] : List Byte).length % 64 ≠ 0) ∧
    (zeros 63 = [] ∨ (zeros 63).length % 64 ≠ 0) ∧ (zeros 65 = [] ∨ (zeros 65).length % 64 ≠ 0) := by decide

/-- A stream of INIT and UPDATEs, an empty one among them. -/
def session (chunks : List (List Byte)) (rest : List HostMove) : List HostMove := issue .init :: (updateMoves chunks ++ rest)

theorem witness_UpdatesAbsorbMessage :
    (coreIn .none [] 0 .ok (session [as 3, [], as 70] [])).fault = .ok ∧ [as 3, [], as 70].flatten.length < 2 ^ 61 ∧
    (coreIn .none [] 0 .ok (session [as 3, [], as 70] [])).host = issue .init :: (updateMoves [as 3, [], as 70] ++ []) := by
  refine ⟨rfl, ?_, rfl⟩; decide

theorem witness_ChunkingDoesNotMatter :
    (coreIn .none [] 0 .ok (session [as 3, as 70] [issue .finalize])).fault = .ok ∧
    (coreIn .finalized (as 9) 64 .ok (session [as 60, as 13] [issue .finalize])).fault = .ok ∧
    [as 3, as 70].flatten = [as 60, as 13].flatten ∧ [as 3, as 70].flatten.length < 2 ^ 61 ∧
    (coreIn .none [] 0 .ok (session [as 3, as 70] [issue .finalize])).host =
      issue .init :: (updateMoves [as 3, as 70] ++ [issue .finalize]) ∧
    (coreIn .finalized (as 9) 64 .ok (session [as 60, as 13] [issue .finalize])).host =
      issue .init :: (updateMoves [as 60, as 13] ++ [issue .finalize]) := by
  refine ⟨rfl, rfl, ?_, ?_, rfl, rfl⟩ <;> decide

theorem witness_SessionAnswersSha256 :
    (coreIn .absorbing (as 9) 64 .ok (session [as 3] [issue .finalize])).fault = .ok ∧ [as 3].flatten.length < 2 ^ 61 ∧
    (coreIn .absorbing (as 9) 64 .ok (session [as 3] [issue .finalize])).host =
      issue .init :: (updateMoves [as 3] ++ issue .finalize :: []) := by
  refine ⟨rfl, ?_, rfl⟩; decide

theorem witness_HashEqualsSession :
    (coreIn .absorbing (as 9) 64 .ok []).fault = .ok ∧
    (coreIn .none [] 0 .ok [issue .init, issue (.update (as 3)), issue .finalize]).fault = .ok ∧ (as 3).length < 2 ^ 61 ∧
    (coreIn .none [] 0 .ok [issue .init, issue (.update (as 3)), issue .finalize]).host =
      [issue .init, issue (.update (as 3)), issue .finalize] := by
  refine ⟨rfl, rfl, ?_, rfl⟩; decide

/-- Messages of 55 and of 56 bytes: one padding block and two. -/
theorem witness_PaddedMessageIsAligned :
    (as 55).length < 2 ^ 61 ∧ Absorbed (as 55) (coreIn .absorbing (as 55) 0 .ok []) ∧
    (as 56).length < 2 ^ 61 ∧ Absorbed (as 56) (coreIn .absorbing (as 56) 0 .ok []) := by
  refine ⟨by decide, ⟨⟨rfl, rfl⟩, ?_, ?_, ?_, rfl⟩, by decide, ⟨⟨rfl, rfl⟩, ?_, ?_, ?_, rfl⟩⟩ <;> decide

theorem witness_PadBytes :
    ((as 55).length ≤ 63 ∧ ((as 55).length ≤ 55 → 1 = 1) ∧ (56 ≤ (as 55).length → 1 = 2)) ∧
    ((as 56).length ≤ 63 ∧ ((as 56).length ≤ 55 → 2 = 1) ∧ (56 ≤ (as 56).length → 2 = 2)) ∧
    (as 55).length < 56 ∧ (as 56).length < 57 ∧ 57 < 64 * 2 - 8 := by decide

theorem witness_PaddingMachineEqualsPad : ([] : List Byte).length ≤ 63 ∧ (as 55).length ≤ 63 ∧ (as 63).length ≤ 63 := by decide

theorem witness_BitLengthIsExact :
    (coreIn .absorbing (as 63) 0x1FFFFFFFFFFFFFC0 .ok []).phase = .absorbing ∧
    LifecycleInv (coreIn .absorbing (as 63) 0x1FFFFFFFFFFFFFC0 .ok []) := by
  refine ⟨rfl, fun _ => ?_⟩; decide

theorem witness_CompressBlocksInOrder : ([] : List Byte).length % 64 = 0 ∧ (zeros 128).length % 64 = 0 := by decide +kernel

theorem witness_BufferReadAfterWrite :
    1 + (as 63).length ≤ 64 ∧ ((0 : Fin 64).val < 1 ∨ 1 + (as 63).length ≤ (0 : Fin 64).val) ∧
    0 + (as 3).length ≤ 64 ∧ ((3 : Fin 64).val < 0 ∨ 0 + (as 3).length ≤ (3 : Fin 64).val) := by decide

/-- A session with a message of each kind and commands between them. -/
def sampleSession : List HostMove :=
  .reset :: ([issue (.hash [1])] ++
    ((issue .init :: ([issue (.update [2]), issue (.compress iv (zeros 64))] ++ [issue .finalize])) ++
      ([issue (.hash [])] ++ ((issue .init :: [issue (.update [3])]) ++ ([] ++ [])))))

theorem witness_LifecycleNeverFaults :
    SessionMoves sampleSession ∧ (coreIn .none [] 0 .length sampleSession).host = sampleSession ∧
    1 ≤ 8 ∧ 8 ≤ sampleSession.length := by
  refine ⟨⟨[issue (.hash [1])], _, rfl, ?_, ?_⟩, rfl, by decide, by decide⟩
  · intro m hm
    rw [List.mem_singleton] at hm
    exact .inl ⟨_, hm⟩
  · refine .cons ⟨_, ?_, .inl rfl⟩ ?_ (.cons ⟨_, ?_, .inr rfl⟩ ?_ .nil)
    · intro m hm
      simp only [List.mem_cons, List.not_mem_nil, or_false] at hm
      rcases hm with rfl | rfl
      · exact .inl ⟨_, rfl⟩
      · exact .inr (.inr ⟨_, _, rfl, by decide⟩)
    · intro m hm
      rw [List.mem_singleton] at hm
      exact .inl ⟨_, hm⟩
    · intro m hm
      rw [List.mem_singleton] at hm
      exact .inl ⟨_, hm⟩
    · intro m hm
      exact absurd hm List.not_mem_nil

/-- Two cores that differ in H, NSTAGED, TOTAL, BUF and the draws to come without a context, and two that differ in BUF beyond NSTAGED. -/
theorem witness_HiddenStateIsNeverSeen :
    Indistinguishable (coreIn .none [] 0 .ok (one 1 []))
      { coreIn .none (as 5) 128 .ok (one 1 []) with h := ⟨1, 2, 3, 4, 5, 6, 7, 8⟩, draws := ⟨1, 0⟩ } ∧
    Indistinguishable (coreIn .absorbing (as 3) 0 .ok (one 3 [])) { coreIn .absorbing (as 9) 0 .ok (one 3 []) with nstaged := 3 } := by
  refine ⟨⟨rfl, rfl, rfl, rfl, fun h => by cases h⟩, ⟨rfl, rfl, rfl, rfl, fun _ => ⟨rfl, rfl, rfl, ?_⟩⟩⟩
  decide

/-- R36: after three staged bytes BUF holds the draw, and no value; below them it holds the bytes. -/
theorem test_undefined_bytes :
    bufValue (coreIn .absorbing (as 3) 0 .ok []) 2 = some 0x61 ∧ bufValue (coreIn .absorbing (as 3) 0 .ok []) 3 = none ∧
    (redrawBuf (Vector.replicate 64 0x55) (coreIn .absorbing (as 3) 0 .ok [])).buf[2] = 0x61 ∧
    (redrawBuf (Vector.replicate 64 0x55) (coreIn .absorbing (as 3) 0 .ok [])).buf[3] = 0x55 := by decide

/-- A system of cores that all wait with an INIT to take. -/
def allReady : System := ⟨Vector.replicate Config.numInstances (coreIn .none [] 0 .ok (one 1 []))⟩

/-- The first instance. -/
def firstCore : Fin Config.numInstances := ⟨0, Nat.succ_pos _⟩

theorem step_ready : step (coreIn .none [] 0 .ok (one 1 [])) = .next { fresh with responses := [⟨0, []⟩] } := rfl

theorem allReady_core (k : Fin Config.numInstances) : allReady.cores[k] = coreIn .none [] 0 .ok (one 1 []) :=
  Vector.getElem_replicate k.isLt

theorem witness_InstancesAreIsolated :
    stepInstance firstCore allReady =
      .next ⟨allReady.cores.set firstCore { fresh with responses := [⟨0, []⟩] }⟩ := by
  unfold stepInstance
  rw [allReady_core, step_ready]

theorem witness_AnyInterleavingGivesSameResponses :
    runInterleaving [firstCore] allReady =
      .next ⟨allReady.cores.set firstCore { fresh with responses := [⟨0, []⟩] }⟩ := by
  unfold runInterleaving
  rw [witness_InstancesAreIsolated]
  rfl

theorem witness_SystemStartsFromReset :
    firstCore.val = 0 ∧ System.reset.cores[firstCore].draws.core = System.reset.cores[firstCore].draws.core := ⟨rfl, rfl⟩

/-- Each clause of R217's table, at a boundary of its range. -/
theorem witness_EngineCallsPerCommand :
    faultAfter (.update []) (coreIn .none [] 0 .ok []) ≠ .ok ∧ faultAfter .init (coreIn .none [] 0 .ok []) = .ok ∧
    faultAfter (.update (as 1)) (coreIn .absorbing (as 63) 0 .ok []) = .ok ∧
    faultAfter .finalize (coreIn .absorbing (as 56) 0 .ok []) = .ok ∧
    faultAfter (.hash (as 55)) (coreIn .none [] 0 .ok []) = .ok ∧
    faultAfter (.compress iv (zeros 64)) (coreIn .none [] 0 .ok []) = .ok := by decide

theorem witness_WordOperationsBitwise : 1 ≤ 1 ∧ 31 ≤ 31 ∧ 31 < 32 := by decide

theorem witness_ScheduleMeetsRecurrence : 15 < 16 ∧ 16 ≤ 16 ∧ 63 < 64 := by decide

theorem witness_DigestBytes : 7 < 8 ∧ 3 < 4 := by decide

end Sys2Proof.Tests
end

section
namespace Sys2Proof.Machine

/-- Reading the place of a write gives the bytes written, in a buffer of any size (R12). -/
theorem memRead_memWrite {size : Nat} (buf : Vector Byte size) (addr : Nat) (v : List Byte)
    (h : addr + v.length ≤ size) : memRead (memWrite buf addr v) addr v.length = v := by
  have prefixLength : (buf.toList.take addr).length = addr := by simp; omega
  rw [memRead, memWrite_toList buf addr v h, List.drop_left' prefixLength, List.take_left]

/-- Settles O50: the read by `memRead_memWrite`, the bytes around the write by `memWrite_outside`. -/
theorem bufferReadAfterWrite : Obligations.BufferReadAfterWrite := by
  intro buf addr v fits
  constructor
  · exact memRead_memWrite buf addr v fits
  · intro i outside
    exact memWrite_outside buf addr v i.val i.isLt outside

end Sys2Proof.Machine
end

section
namespace Sys2Proof.Machine

/-! ### What UPDATE does to the context, in closed form (41_hasher.md R141) -/

/-- The engine takes whole blocks and then the rest from the state they gave (R116). -/
theorem compressBlocks_append (h : HashState) (x y : List Byte) (wholeX : x.length % 64 = 0) :
    compressBlocks h (x ++ y) = compressBlocks (compressBlocks h x) y := by
  have blockCount : (x ++ y).length / 64 = x.length / 64 + y.length / 64 := by
    rw [List.length_append]; omega
  have restOfBytes : (x ++ y).drop (64 * (x.length / 64)) = y := List.drop_left' (by omega)
  rw [compressBlocks, blockCount, compressChain_add, restOfBytes, compressChain_append _ _ _ _ (by omega)]
  rfl

/-- A front part of a buffer up to the end of a write: what stood before the write, then the bytes written (R12). -/
theorem memRead_zero_memWrite {size : Nat} (buf : Vector Byte size) (addr : Nat) (v : List Byte)
    (fits : addr + v.length ≤ size) : memRead (memWrite buf addr v) 0 (addr + v.length) = memRead buf 0 addr ++ v := by
  have frontLength : (buf.toList.take addr).length = addr := by simp; omega
  rw [memRead_zero, memRead_zero, memWrite_toList buf addr v fits, ← List.append_assoc]
  exact List.take_left' (by rw [List.length_append, frontLength])

/-- The staged bytes and the payload's first bytes, as they stand in BUF after step a (R141). -/
theorem memRead_writeBuf (s : State) (v : List Byte) (fits : s.nstaged.toNat + v.length ≤ 64) :
    memRead (writeBuf s.nstaged.toNat v s).buf 0 (s.nstaged.toNat + v.length) = stagedBytes s ++ v :=
  memRead_zero_memWrite s.buf _ v fits

/-- UPDATE of a chunk that leaves room in BUF only stages it (R141 steps a and b). -/
theorem absorb_of_fits {d : List Byte} {s : State} (room : s.nstaged.toNat + d.length < 64) :
    absorb d s = setStaged (s.nstaged.toNat + d.length) (writeBuf s.nstaged.toNat d s) := by
  have allFits : min d.length (64 - s.nstaged.toNat) = d.length := by omega
  simp [absorb, room, allFits]

/-- UPDATE of a chunk that fills BUF compresses it and goes on with the rest of the chunk (R141 steps a and c to e). -/
theorem absorb_of_fills {d : List Byte} {s : State} (full : 64 ≤ s.nstaged.toNat + d.length) :
    absorb d s = absorbFull (d.drop (64 - s.nstaged.toNat))
      (writeBuf s.nstaged.toNat (d.take (64 - s.nstaged.toNat)) s) := by
  have someFits : min d.length (64 - s.nstaged.toNat) = 64 - s.nstaged.toNat := by omega
  simp [absorb, Nat.not_lt.mpr full, someFits]

/-- BUF, once full, and the rest of the chunk are together the staged bytes and the chunk. -/
theorem memRead_filled {d : List Byte} {s : State} (full : 64 ≤ s.nstaged.toNat + d.length) :
    memRead (writeBuf s.nstaged.toNat (d.take (64 - s.nstaged.toNat)) s).buf 0 64 ++ d.drop (64 - s.nstaged.toNat) =
      stagedBytes s ++ d := by
  have below := s.nstaged.isLt
  have filled : s.nstaged.toNat + (d.take (64 - s.nstaged.toNat)).length = 64 := by
    rw [List.length_take]; omega
  have read := memRead_writeBuf s (d.take (64 - s.nstaged.toNat)) (by omega)
  rw [filled] at read
  rw [read, List.append_assoc, List.take_append_drop]

/-- A full BUF and the rest of the chunk have as many bytes as the staged bytes and the chunk. -/
theorem filled_length {d : List Byte} {s : State} (full : 64 ≤ s.nstaged.toNat + d.length) :
    64 + (d.drop (64 - s.nstaged.toNat)).length = s.nstaged.toNat + d.length := by
  have below := s.nstaged.isLt
  rw [List.length_drop]; omega

/-- A full BUF counts as one more whole block. -/
theorem wholeBytes_of_full (n : Nat) : 64 * ((64 + n) / 64) = 64 + 64 * (n / 64) := by omega

/-- H after a full BUF: the whole blocks of BUF and the rest of the chunk, compressed in order (R141 steps c and d). -/
theorem absorbFull_h (rest : List Byte) (s : State) :
    (absorbFull rest s).h =
      compressBlocks s.h ((memRead s.buf 0 64 ++ rest).take (64 * ((64 + rest.length) / 64))) := by
  have blockLength : (memRead s.buf 0 64).length = 64 := memRead_length _ _ _ (by omega)
  rw [wholeBytes_of_full, List.take_append, blockLength, Nat.add_sub_cancel_left,
    List.take_of_length_le (by omega), compressBlocks_append _ _ _ (by omega)]
  rfl

/-- TOTAL after a full BUF: 64 bytes more for each whole block (R141 steps c and d). -/
theorem absorbFull_total (rest : List Byte) (s : State) :
    (absorbFull rest s).total = s.total + BitVec.ofNat 64 (64 * ((64 + rest.length) / 64)) := by
  have blockLength : (memRead s.buf 0 64).length = 64 := memRead_length _ _ _ (by omega)
  have wholeLength : (rest.take (64 * (rest.length / 64))).length = 64 * (rest.length / 64) := by
    rw [List.length_take]; omega
  rw [wholeBytes_of_full, BitVec.ofNat_add, ← BitVec.add_assoc]
  simp only [absorbFull, setStaged_total, writeBuf_total, compressInto_total, wholeLength, blockLength]

/-- NSTAGED after a full BUF: the length of the new tail (R141 step e). -/
theorem absorbFull_nstaged (rest : List Byte) (s : State) :
    (absorbFull rest s).nstaged.toNat = rest.length % 64 := by
  simp [absorbFull]; omega

/-- The staged bytes after a full BUF: the new tail (R141 step e). -/
theorem stagedBytes_absorbFull (rest : List Byte) (s : State) :
    stagedBytes (absorbFull rest s) =
      (memRead s.buf 0 64 ++ rest).drop (64 * ((64 + rest.length) / 64)) := by
  have blockLength : (memRead s.buf 0 64).length = 64 := memRead_length _ _ _ (by omega)
  have tailLength : (rest.drop (64 * (rest.length / 64))).length = rest.length % 64 := by
    rw [List.length_drop]; omega
  have tailRead := memRead_memWrite s.buf 0 (rest.drop (64 * (rest.length / 64))) (by omega)
  rw [tailLength] at tailRead
  rw [wholeBytes_of_full, List.drop_append, List.drop_eq_nil_of_le (by omega), List.nil_append, blockLength,
    Nat.add_sub_cancel_left, stagedBytes, absorbFull_nstaged]
  exact tailRead

/-- NSTAGED after UPDATE (R141, R144). -/
theorem absorb_nstaged (d : List Byte) (s : State) :
    (absorb d s).nstaged.toNat = (s.nstaged.toNat + d.length) % 64 := by
  rcases Nat.lt_or_ge (s.nstaged.toNat + d.length) 64 with room | full
  · simp [absorb_of_fits room]
  · rw [absorb_of_fills full, absorbFull_nstaged, ← filled_length full, Nat.add_mod_left]

/-- TOTAL after UPDATE: 64 bytes more for each whole block (R141, R144). -/
theorem absorb_total (d : List Byte) (s : State) :
    (absorb d s).total = s.total + BitVec.ofNat 64 (64 * ((s.nstaged.toNat + d.length) / 64)) := by
  rcases Nat.lt_or_ge (s.nstaged.toNat + d.length) 64 with room | full
  · simp [absorb_of_fits room, Nat.div_eq_of_lt room]
  · rw [absorb_of_fills full, absorbFull_total, filled_length full, writeBuf_total]

/-- H after UPDATE: the whole blocks of the staged bytes and the chunk, compressed in order (R141, R144). -/
theorem absorb_h (d : List Byte) (s : State) :
    (absorb d s).h =
      compressBlocks s.h ((stagedBytes s ++ d).take (64 * ((s.nstaged.toNat + d.length) / 64))) := by
  rcases Nat.lt_or_ge (s.nstaged.toNat + d.length) 64 with room | full
  · simp [absorb_of_fits room, Nat.div_eq_of_lt room]
  · rw [absorb_of_fills full, absorbFull_h, filled_length full, memRead_filled full, writeBuf_h]

/-- The defined bytes of BUF after UPDATE: what the whole blocks leave of the staged bytes and the chunk (R141, R144). -/
theorem stagedBytes_absorb (d : List Byte) (s : State) :
    stagedBytes (absorb d s) =
      (stagedBytes s ++ d).drop (64 * ((s.nstaged.toNat + d.length) / 64)) := by
  rcases Nat.lt_or_ge (s.nstaged.toNat + d.length) 64 with room | full
  · rw [stagedBytes, absorb_nstaged, Nat.mod_eq_of_lt room, absorb_of_fits room, setStaged_buf,
      memRead_writeBuf s d (by omega), Nat.div_eq_of_lt room, Nat.mul_zero, List.drop_zero]
  · rw [absorb_of_fills full, stagedBytes_absorbFull, filled_length full, memRead_filled full]

end Sys2Proof.Machine
end

section
namespace Sys2Proof.Machine

/-! ### Everything a command and a step can do -/

/-- What one command can do to a core: answer, with nothing but FAULT written (the sticky answer, a fault entered from 0, HASH and COMPRESS), or the effect of INIT, UPDATE or FINALIZE (60_exceptions.md R183, 41_hasher.md R140, R141, R152). -/
inductive CommandEffect (c : Command) (s : State) : State → Prop where
  | answers (code : FaultCode) (data : List Byte) (entered : s.fault = .ok ∨ code = s.fault) :
    CommandEffect c s (respond code data { s with fault := code })
  | starts (isInit : decode c = .command .init) : CommandEffect c s (respond .ok [] (startContext s))
  | absorbs (d : List Byte) (isUpdate : decode c = .command (.update d)) (isOpen : s.phase = .absorbing)
    (short : messageLength s + d.length < Config.lengthLimit) : CommandEffect c s (respond .ok [] (absorb d s))
  | finishes (isFinalize : decode c = .command .finalize) (isOpen : s.phase = .absorbing) :
    CommandEffect c s (respond .ok (digest (finalHash s)) (finishContext s))

/-- An answer that leaves FAULT as it is. -/
theorem CommandEffect.answers_unchanged {c : Command} {s : State} {code : FaultCode} (data : List Byte)
    (unchanged : code = s.fault) : CommandEffect c s (respond code data s) := by
  subst unchanged
  exact .answers s.fault data (.inr rfl)

/-- Running a decoded command has one of the effects of a command. -/
theorem exec_effect {c : Command} {i : Instr} {s t : State} (decoded : decode c = .command i)
    (run : exec i s = .next t) : CommandEffect c s t := by
  cases i with
  | init =>
    rcases execInit_cases run with ⟨-, rfl⟩ | ⟨-, rfl⟩
    · exact .answers_unchanged [] rfl
    · exact .starts decoded
  | update d =>
    rcases execUpdate_cases run with ⟨-, rfl⟩ | ⟨ok, code, rfl, -⟩ | ⟨-, isOpen, short, rfl⟩
    · exact .answers_unchanged [] rfl
    · exact .answers code [] (.inl ok)
    · exact .absorbs d decoded isOpen short
  | finalize =>
    rcases execFinalize_cases run with ⟨-, rfl⟩ | ⟨ok, code, rfl, -⟩ | ⟨-, isOpen, rfl⟩
    · exact .answers_unchanged [] rfl
    · exact .answers code [] (.inl ok)
    · exact .finishes decoded isOpen
  | hash m =>
    rcases execHash_cases run with ⟨-, rfl⟩ | ⟨ok, -, rfl⟩ | ⟨ok, -, rfl⟩
    · exact .answers_unchanged [] rfl
    · exact .answers .length [] (.inl ok)
    · exact .answers_unchanged _ ok.symm
  | compress sin blocks =>
    rcases execCompress_cases run with ⟨-, rfl⟩ | ⟨ok, -, rfl⟩ | ⟨ok, -, rfl⟩
    · exact .answers_unchanged [] rfl
    · exact .answers .operand [] (.inl ok)
    · exact .answers_unchanged _ ok.symm

/-- Accepting a command has one of the effects of a command. -/
theorem accept_effect {c : Command} {s t : State} (run : accept c s = .next t) : CommandEffect c s t := by
  rcases accept_cases run with ⟨-, rfl⟩ | ⟨ok, -, rfl⟩ | ⟨ok, -, rfl⟩ | ⟨-, i, decoded, run⟩
  · exact .answers_unchanged [] rfl
  · exact .answers .illegal [] (.inl ok)
  · exact .answers .operand [] (.inl ok)
  · exact exec_effect decoded run

/-- Everything a step that goes on can be, down to the effect of its command. -/
theorem step_effect {s t : State} (run : step s = .next t) :
    (s.host = [] ∧ t = s) ∨
    (∃ c rest, s.host = .command c :: rest ∧ CommandEffect c { s with host := rest } t) ∨
    (∃ rest, s.host = .reset :: rest ∧ t = takeReset { s with host := rest }) := by
  rcases step_cases run with idle | ⟨c, rest, next, run⟩ | reset
  · exact .inl idle
  · exact .inr (.inl ⟨c, rest, next, accept_effect run⟩)
  · exact .inr (.inr reset)

/-- INIT is the only effect of a command that opens a context, FINALIZE of an open context the only one that finishes one (R25). -/
theorem CommandEffect.phase_cases {c : Command} {s t : State} (effect : CommandEffect c s t) :
    t.phase = s.phase ∨ (t.phase = .absorbing ∧ decode c = .command .init) ∨
    (t.phase = .finalized ∧ s.phase = .absorbing ∧ decode c = .command .finalize) := by
  cases effect with
  | answers code data entered => exact .inl rfl
  | starts isInit => exact .inr (.inl ⟨rfl, isInit⟩)
  | absorbs d isUpdate isOpen short => exact .inl (by simp)
  | finishes isFinalize isOpen => exact .inr (.inr ⟨rfl, isOpen, isFinalize⟩)

/-- A command writes FAULT only from 0 (R26). -/
theorem CommandEffect.fault_cases {c : Command} {s t : State} (effect : CommandEffect c s t) :
    s.fault = .ok ∨ t.fault = s.fault := by
  cases effect with
  | answers code data entered => exact entered
  | starts isInit => exact .inr rfl
  | absorbs d isUpdate isOpen short => exact .inr (by simp)
  | finishes isFinalize isOpen => exact .inr rfl

/-- The registers that each kind of command leaves as they were (R21 to R24). -/
theorem CommandEffect.frame {c : Command} {s t : State} (effect : CommandEffect c s t) :
    (t.h = s.h ∧ t.nstaged = s.nstaged ∧ t.total = s.total ∧ t.buf = s.buf) ∨
    (decode c = .command .init ∧ t.buf = s.buf) ∨
    (∃ d, decode c = .command (.update d)) ∨
    (decode c = .command .finalize ∧ t.nstaged = s.nstaged ∧ t.total = s.total ∧ t.buf = s.buf) := by
  cases effect with
  | answers code data entered => exact .inl ⟨rfl, rfl, rfl, rfl⟩
  | starts isInit => exact .inr (.inl ⟨isInit, rfl⟩)
  | absorbs d isUpdate isOpen short => exact .inr (.inr (.inl ⟨d, isUpdate⟩))
  | finishes isFinalize isOpen => exact .inr (.inr (.inr ⟨isFinalize, rfl, rfl, rfl⟩))

end Sys2Proof.Machine
end

section
namespace Sys2Proof.Safety

open Sys2Proof Sys2Proof.Machine

/-- TOTAL after an UPDATE below the length limit does not wrap (R142). -/
theorem absorb_total_toNat {d : List Byte} {s : State} (short : messageLength s + d.length < Config.lengthLimit) :
    (absorb d s).total.toNat = s.total.toNat + 64 * ((s.nstaged.toNat + d.length) / 64) := by
  simp only [messageLength, Config.lengthLimit] at short
  rw [absorb_total, BitVec.toNat_add, BitVec.toNat_ofNat]
  omega

/-- An UPDATE below the length limit adds its chunk to the message and keeps TOTAL a multiple of 64 (R32, R144). -/
theorem lifecycleInv_absorb {d : List Byte} {s : State} (inv : LifecycleInv s) (isOpen : s.phase = .absorbing)
    (short : messageLength s + d.length < Config.lengthLimit) : LifecycleInv (absorb d s) := by
  obtain ⟨-, aligned, -⟩ := inv isOpen
  have total := absorb_total_toNat short
  have staged := absorb_nstaged d s
  simp only [messageLength, Config.lengthLimit] at short
  intro _
  simp only [messageLength]
  omega

/-- Every command keeps the invariant of R32. -/
theorem lifecycleInv_effect {c : Command} {s t : State} (inv : LifecycleInv s) (effect : CommandEffect c s t) :
    LifecycleInv t := by
  cases effect with
  | answers code data entered => exact inv
  | starts isInit => exact fun _ => by simp [messageLength]
  | absorbs d isUpdate isOpen short => exact lifecycleInv_absorb inv isOpen short
  | finishes isFinalize isOpen => exact fun absorbing => by simp at absorbing

/-- Settles O22: an idle step changes nothing, reset closes the context, and every command keeps the invariant. -/
theorem stepKeepsLifecycleInv : Obligations.StepKeepsLifecycleInv := by
  intro s t inv run
  rcases step_effect run with ⟨-, rfl⟩ | ⟨c, rest, -, effect⟩ | ⟨rest, -, rfl⟩
  · exact inv
  · exact lifecycleInv_effect (s := { s with host := rest }) inv effect
  · exact fun absorbing => by simp at absorbing

/-- Settles O21: no context is open after reset. -/
theorem resetMeetsLifecycleInv : Obligations.ResetMeetsLifecycleInv :=
  fun absorbing => by simp at absorbing

/-- Settles O16: a command writes FAULT only from 0, an idle step not at all, and reset clears it. -/
theorem onlyResetClearsFault : Obligations.OnlyResetClearsFault := by
  intro s t run changed
  rcases step_effect run with ⟨-, rfl⟩ | ⟨c, rest, next, effect⟩ | ⟨rest, next, rfl⟩
  · exact absurd rfl changed
  · rcases effect.fault_cases with ok | same
    · exact .inl ⟨ok, c, rest, next⟩
    · exact absurd same changed
  · exact .inr ⟨rfl, rest, next⟩

/-- Settles O17: the three writers of PHASE are reset and, of the commands, INIT and FINALIZE. -/
theorem phaseWriters : Obligations.PhaseWriters := by
  intro s t run changed
  rcases step_effect run with ⟨-, rfl⟩ | ⟨c, rest, next, effect⟩ | ⟨rest, next, rfl⟩
  · exact absurd rfl changed
  · rcases effect.phase_cases with same | ⟨opened, isInit⟩ | ⟨finished, isOpen, isFinalize⟩
    · exact absurd same changed
    · exact .inr (.inl ⟨opened, c, rest, next, isInit⟩)
    · exact .inr (.inr ⟨finished, isOpen, c, rest, next, isFinalize⟩)
  · exact .inl ⟨rfl, rest, next⟩

/-- Settles O18: what each command leaves as it was says which commands may have written a register that changed. -/
theorem registerWriters : Obligations.RegisterWriters := by
  intro s t c rest next run
  rw [step_command next] at run
  rcases (accept_effect run).frame with ⟨h, nstaged, total, buf⟩ | ⟨isInit, buf⟩ | ⟨d, isUpdate⟩ |
    ⟨isFinalize, nstaged, total, buf⟩
  · exact ⟨fun changed => absurd h changed, fun changed => absurd changed (by simp [nstaged, total]),
      fun changed => absurd buf changed⟩
  · exact ⟨fun _ => .inl isInit, fun _ => .inl isInit, fun changed => absurd buf changed⟩
  · exact ⟨fun _ => .inr (.inl ⟨d, isUpdate⟩), fun _ => .inr ⟨d, isUpdate⟩, fun _ => ⟨d, isUpdate⟩⟩
  · exact ⟨fun _ => .inr (.inr isFinalize), fun changed => absurd changed (by simp [nstaged, total]),
      fun changed => absurd buf changed⟩

/-- Settles O8: the step accepts the command, and accepting a command that decodes is running its instruction. -/
theorem stepRunsDecodedInstr : Obligations.StepRunsDecodedInstr := by
  intro s c rest i next decoded _
  rw [step_command next, accept_of_command decoded]

end Sys2Proof.Safety
end

section
namespace Sys2Proof.Safety

open Sys2Proof Sys2Proof.Machine

/-! ### Cores the host cannot tell apart answer alike (10_state.md R35, R36, R38) -/

/-- Two answers of the same kind, written out. -/
theorem sameAnswer_cases {rel : State → State → Prop} {r q : Result} (same : SameAnswer rel r q) :
    (∃ s t, r = .next s ∧ q = .next t ∧ rel s t) ∨ (∃ f, r = .fault f ∧ q = .fault f) ∨
    (∃ f, r = .refused f ∧ q = .refused f) := by
  cases r with
  | next s =>
    cases q with
    | next t => exact .inl ⟨s, t, rfl, rfl, same⟩
    | fault b => exact same.elim
    | refused b => exact same.elim
  | fault a =>
    cases q with
    | next t => exact same.elim
    | fault b => exact .inr (.inl ⟨a, rfl, congrArg _ (Eq.symm same)⟩)
    | refused b => exact same.elim
  | refused a =>
    cases q with
    | next t => exact same.elim
    | fault b => exact same.elim
    | refused b => exact .inr (.inr ⟨a, rfl, congrArg _ (Eq.symm same)⟩)

theorem Indistinguishable.refl (s : State) : Indistinguishable s s :=
  ⟨rfl, rfl, rfl, rfl, fun _ => ⟨rfl, rfl, rfl, rfl⟩⟩

theorem Indistinguishable.trans {s t u : State} (st : Indistinguishable s t) (tu : Indistinguishable t u) :
    Indistinguishable s u := by
  obtain ⟨phase, fault, host, responses, context⟩ := st
  obtain ⟨phase', fault', host', responses', context'⟩ := tu
  refine ⟨phase.trans phase', fault.trans fault', host.trans host', responses.trans responses', fun isOpen => ?_⟩
  obtain ⟨h, nstaged, total, staged⟩ := context isOpen
  obtain ⟨h', nstaged', total', staged'⟩ := context' (phase ▸ isOpen)
  exact ⟨h.trans h', nstaged.trans nstaged', total.trans total', staged.trans staged'⟩

/-- A draw of the undefined bytes of BUF cannot be seen (R36). -/
theorem Indistinguishable.redrawBuf (draw : Vector Byte 64) (s : State) : Indistinguishable (redrawBuf draw s) s :=
  ⟨rfl, rfl, rfl, rfl, fun _ => ⟨rfl, rfl, rfl, stagedBytes_redrawBuf draw s⟩⟩

section
variable {s t : State} (same : Indistinguishable s t)
include same

theorem Indistinguishable.respond (code : FaultCode) (data : List Byte) :
    Indistinguishable (respond code data s) (respond code data t) := by
  obtain ⟨phase, fault, host, responses, context⟩ := same
  exact ⟨phase, fault, host, by simp [responses], context⟩

theorem Indistinguishable.withFault (code : FaultCode) :
    Indistinguishable { s with fault := code } { t with fault := code } := by
  obtain ⟨phase, -, host, responses, context⟩ := same
  exact ⟨phase, rfl, host, responses, context⟩

theorem Indistinguishable.withHost (moves : List HostMove) :
    Indistinguishable { s with host := moves } { t with host := moves } := by
  obtain ⟨phase, fault, -, responses, context⟩ := same
  exact ⟨phase, fault, rfl, responses, context⟩

theorem Indistinguishable.startContext : Indistinguishable (startContext s) (startContext t) := by
  obtain ⟨-, fault, host, responses, -⟩ := same
  exact ⟨rfl, fault, host, responses, fun _ => ⟨rfl, rfl, rfl, rfl⟩⟩

theorem Indistinguishable.takeReset : Indistinguishable (takeReset s) (takeReset t) := by
  obtain ⟨-, -, host, responses, -⟩ := same
  exact ⟨rfl, rfl, host, responses, fun absorbing => by simp at absorbing⟩

theorem Indistinguishable.messageLength (isOpen : s.phase = .absorbing) : messageLength s = messageLength t := by
  obtain ⟨-, -, -, -, context⟩ := same
  obtain ⟨-, nstaged, total, -⟩ := context isOpen
  rw [Machine.messageLength, Machine.messageLength, nstaged, total]

/-- UPDATE reads the defined context only, by its closed form (R36, R141). -/
theorem Indistinguishable.absorb (isOpen : s.phase = .absorbing) (d : List Byte) :
    Indistinguishable (absorb d s) (absorb d t) := by
  obtain ⟨phase, fault, host, responses, context⟩ := same
  obtain ⟨h, nstaged, total, staged⟩ := context isOpen
  refine ⟨by simp [phase], by simp [fault], by simp [host], by simp [responses], fun _ => ⟨?_, ?_, ?_, ?_⟩⟩
  · rw [absorb_h, absorb_h, h, staged, nstaged]
  · apply BitVec.eq_of_toNat_eq
    rw [absorb_nstaged, absorb_nstaged, nstaged]
  · rw [absorb_total, absorb_total, total, nstaged]
  · rw [stagedBytes_absorb, stagedBytes_absorb, staged, nstaged]

/-- FINALIZE reads the defined context only (R36, R152). -/
theorem Indistinguishable.finalHash (isOpen : s.phase = .absorbing) : finalHash s = finalHash t := by
  have length := same.messageLength isOpen
  obtain ⟨-, -, -, -, context⟩ := same
  obtain ⟨h, -, -, staged⟩ := context isOpen
  rw [Machine.finalHash, Machine.finalHash, h, staged, length]

/-- A finished context is hidden. -/
theorem Indistinguishable.finishContext : Indistinguishable (finishContext s) (finishContext t) := by
  obtain ⟨-, fault, host, responses, -⟩ := same
  exact ⟨rfl, fault, host, responses, fun absorbing => by simp at absorbing⟩

/-! ### The operations the meanings share -/

theorem sameAnswer_raiseFault (code : FaultCode) :
    SameAnswer Indistinguishable (raiseFault code s) (raiseFault code t) :=
  (same.withFault code).respond code []

theorem sameAnswer_succeed (data : List Byte) : SameAnswer Indistinguishable (succeed data s) (succeed data t) :=
  same.respond .ok data

theorem sameAnswer_unlessFaulted {r q : Result} (effects : SameAnswer Indistinguishable r q) :
    SameAnswer Indistinguishable (unlessFaulted s r) (unlessFaulted t q) := by
  have ⟨_, fault, _, _, _⟩ := same
  by_cases ok : s.fault = .ok
  · rwa [unlessFaulted_of_ok ok, unlessFaulted_of_ok (fault ▸ ok)]
  · rw [unlessFaulted_of_faulted ok, unlessFaulted_of_faulted (fault ▸ ok), fault]
    exact same.respond _ _

/-- The effect of a command that needs an open context is compared in open contexts only. -/
theorem sameAnswer_inContext {r q : Result} (effects : s.phase = .absorbing → SameAnswer Indistinguishable r q) :
    SameAnswer Indistinguishable (inContext s r) (inContext t q) := by
  have ⟨phase, _, _, _, _⟩ := same
  unfold inContext
  rw [← phase]
  cases current : s.phase with
  | none => exact sameAnswer_raiseFault same .noContext
  | absorbing => exact effects current
  | finalized => exact sameAnswer_raiseFault same .finalized

/-! ### Instructions, moves and steps -/

theorem sameAnswer_execUpdate (d : List Byte) : SameAnswer Indistinguishable (execUpdate d s) (execUpdate d t) := by
  refine sameAnswer_unlessFaulted same (sameAnswer_inContext same fun isOpen => ?_)
  rw [same.messageLength isOpen]
  split
  · exact sameAnswer_raiseFault same .length
  · exact sameAnswer_succeed (same.absorb isOpen d) []

theorem sameAnswer_execFinalize : SameAnswer Indistinguishable (execFinalize s) (execFinalize t) := by
  refine sameAnswer_unlessFaulted same (sameAnswer_inContext same fun isOpen => ?_)
  rw [same.finalHash isOpen]
  exact sameAnswer_succeed same.finishContext _

theorem sameAnswer_execHash (m : List Byte) : SameAnswer Indistinguishable (execHash m s) (execHash m t) := by
  refine sameAnswer_unlessFaulted same ?_
  split
  · exact sameAnswer_raiseFault same .length
  · exact sameAnswer_succeed same _

theorem sameAnswer_execCompress (sin : HashState) (blocks : List Byte) :
    SameAnswer Indistinguishable (execCompress sin blocks s) (execCompress sin blocks t) := by
  refine sameAnswer_unlessFaulted same ?_
  split
  · exact sameAnswer_succeed same _
  · exact sameAnswer_raiseFault same .operand

theorem sameAnswer_exec (i : Instr) : SameAnswer Indistinguishable (exec i s) (exec i t) := by
  cases i with
  | init => exact sameAnswer_unlessFaulted same (sameAnswer_succeed same.startContext [])
  | update d => exact sameAnswer_execUpdate same d
  | finalize => exact sameAnswer_execFinalize same
  | hash m => exact sameAnswer_execHash same m
  | compress sin blocks => exact sameAnswer_execCompress same sin blocks

theorem sameAnswer_accept (c : Command) : SameAnswer Indistinguishable (accept c s) (accept c t) := by
  refine sameAnswer_unlessFaulted same ?_
  cases decode c with
  | illegal => exact sameAnswer_raiseFault same .illegal
  | badOperand => exact sameAnswer_raiseFault same .operand
  | command i => exact sameAnswer_exec same i

theorem sameAnswer_takeMove (move : HostMove) :
    SameAnswer Indistinguishable (takeMove move s) (takeMove move t) := by
  cases move with
  | command c => exact sameAnswer_accept same c
  | reset => exact same.takeReset
  | resetDuring c => exact rfl
  | overlap c d => exact rfl

/-- Cores the host cannot tell apart answer a step alike. -/
theorem sameAnswer_step : SameAnswer Indistinguishable (step s) (step t) := by
  have ⟨_, _, host, _, _⟩ := same
  unfold step
  rw [← host]
  cases s.host with
  | nil => exact same
  | cons move rest => exact sameAnswer_takeMove (same.withHost rest) move

/-- Cores the host cannot tell apart answer a step alike, also when the first draws its undefined bytes anew. -/
theorem sameAnswer_stepDrawn (draw : Vector Byte 64) :
    SameAnswer Indistinguishable (stepDrawn draw s) (step t) :=
  sameAnswer_step ((Indistinguishable.redrawBuf draw s).trans same)

end

/-- A run with draws and a run without answer alike from cores the host cannot tell apart. -/
theorem sameAnswer_runDrawn (draws : List (Vector Byte 64)) {s t : State} (same : Indistinguishable s t) :
    SameAnswer Indistinguishable (runDrawn draws s) (runSteps draws.length t) := by
  induction draws generalizing s t with
  | nil => exact same
  | cons draw draws ih =>
    rw [List.length_cons, runDrawn, runSteps]
    rcases sameAnswer_cases (sameAnswer_stepDrawn same draw) with ⟨s', t', hs, ht, next⟩ | ⟨f, hs, ht⟩ | ⟨f, hs, ht⟩
    · rw [hs, ht]; exact ih next
    · rw [hs, ht]; exact rfl
    · rw [hs, ht]; exact rfl

/-- Settles O52, by induction on the number of steps: each step answers alike and leaves the next states indistinguishable. -/
theorem hiddenStateIsNeverSeen : Obligations.HiddenStateIsNeverSeen := by
  intro k
  induction k with
  | zero => exact fun _ _ same => same
  | succ k ih =>
    intro s t same
    rw [runSteps, runSteps]
    rcases sameAnswer_cases (sameAnswer_step same) with ⟨s', t', hs, ht, next⟩ | ⟨f, hs, ht⟩ | ⟨f, hs, ht⟩
    · rw [hs, ht]; exact ih s' t' next
    · rw [hs, ht]; exact rfl
    · rw [hs, ht]; exact rfl

/-- Settles O53: the run with draws and the run without, from the same state. -/
theorem undefinedBytesMayBeDrawn : Obligations.UndefinedBytesMayBeDrawn :=
  fun draws s => sameAnswer_runDrawn draws (.refl s)

end Sys2Proof.Safety
end

section
namespace Sys2Proof.Machine

/-! ### The bytes of BUF that UPDATE stores to (20_memory.md R56) -/

/-- BUF after steps c to e: the new tail, written from index 0 (R141). -/
theorem absorbFull_buf (rest : List Byte) (s : State) :
    (absorbFull rest s).buf = memWrite s.buf 0 (rest.drop (64 * (rest.length / 64))) := rfl

/-- A byte at or beyond the new tail stays through steps c to e (R141). -/
theorem absorbFull_buf_outside {rest : List Byte} (s : State) {i : Nat} (inBuf : i < 64)
    (beyondTail : rest.length % 64 ≤ i) : (absorbFull rest s).buf[i] = s.buf[i] := by
  simp only [absorbFull_buf]
  apply memWrite_outside
  right
  rw [List.length_drop]
  omega

/-- UPDATE leaves a byte outside both ranges of R56: outside the staged chunk and, when BUF fills, beyond the new tail. -/
theorem absorb_buf_outside {d : List Byte} {s : State} {i : Nat} (inBuf : i < 64)
    (outsideChunk : i < s.nstaged.toNat ∨ s.nstaged.toNat + d.length ≤ i)
    (beyondTail : 64 ≤ s.nstaged.toNat + d.length → (s.nstaged.toNat + d.length) % 64 ≤ i) :
    (absorb d s).buf[i] = s.buf[i] := by
  rcases Nat.lt_or_ge (s.nstaged.toNat + d.length) 64 with room | full
  · simp only [absorb_of_fits room, setStaged_buf, writeBuf_buf]
    exact memWrite_outside _ _ _ _ inBuf outsideChunk
  · have belowStaged : i < s.nstaged.toNat := by omega
    have tail := beyondTail full
    rw [← filled_length full, Nat.add_mod_left] at tail
    simp only [absorb_of_fills full, absorbFull_buf_outside _ inBuf tail, writeBuf_buf]
    exact memWrite_outside _ _ _ _ inBuf (.inl belowStaged)

/-- Settles O25: a fault or the sticky answer leaves BUF whole, and a chunk absorbed is `absorb_buf_outside`. -/
theorem updateBufferFrame : Obligations.UpdateBufferFrame := by
  intro s t d run i outsideChunk outsideTail
  rcases execUpdate_cases run with ⟨-, rfl⟩ | ⟨-, code, rfl, -⟩ | ⟨-, -, -, rfl⟩
  · rfl
  · rfl
  · have inBuf := i.isLt
    exact absorb_buf_outside inBuf (by omega) (by omega)

/-! ### The big-endian encodings (20_memory.md R51 to R53) -/

/-- Shifting a number right by one byte less brings in the byte at that place. -/
theorem shiftRight_append_byte {w : Nat} (v : BitVec w) (k : Nat) :
    256 * (v.toNat >>> (k + 8)) + (v.extractLsb' k 8).toNat = v.toNat >>> k := by
  rw [BitVec.extractLsb'_toNat, Nat.shiftRight_add, Nat.shiftRight_eq_div_pow (v.toNat >>> k)]
  exact Nat.div_add_mod _ 256

/-- The bytes of a u64, most significant first, weigh what R53 says: each one read shifts the number on by a byte. -/
theorem be64bytes_value (v : U64) : (be64bytes v).foldl (fun n b => 256 * n + b.toNat) 0 = v.toNat := by
  have nothingAbove : v.toNat >>> (56 + 8) = 0 := Nat.shiftRight_eq_zero _ _ v.isLt
  have firstByte := shiftRight_append_byte v 56
  rw [nothingAbove] at firstByte
  simp only [be64bytes, List.foldl_cons, List.foldl_nil]
  rw [firstByte, shiftRight_append_byte v 48, shiftRight_append_byte v 40,
    shiftRight_append_byte v 32, shiftRight_append_byte v 24, shiftRight_append_byte v 16, shiftRight_append_byte v 8,
    shiftRight_append_byte v 0, Nat.shiftRight_zero]

/-- Settles O49: reading does not look at the bytes before the word, and reads its own bytes back. -/
theorem bigEndianRoundTrips : Obligations.BigEndianRoundTrips := by
  constructor
  · intro w x y
    have skipped := be32_append x (be32bytes w ++ y) 0
    rwa [be32_be32bytes, Nat.add_zero] at skipped
  · intro v
    exact ⟨be64bytes_length v, be64bytes_value v⟩

end Sys2Proof.Machine
end

section
namespace Sys2Proof.Machine

open Sys2Proof.Safety

/-! ### Instances side by side (20_memory.md R65, 60_exceptions.md R191) -/

/-- A step of an instance that goes on is its own core's step, stored at its place. -/
theorem stepInstance_next {k : Fin Config.numInstances} {y z : System} (run : stepInstance k y = .next z) :
    ∃ t, step y.cores[k] = .next t ∧ z = ⟨y.cores.set k t⟩ := by
  unfold stepInstance at run
  cases own : step y.cores[k] with
  | next t => rw [own] at run; injection run with run; exact ⟨t, rfl, run.symm⟩
  | fault r => rw [own] at run; cases run
  | refused r => rw [own] at run; cases run

/-- A run of a system that goes on is a step of the first instance in the order and then the run of the rest. -/
theorem runInterleaving_cons_next {k : Fin Config.numInstances} {order : List (Fin Config.numInstances)}
    {y z : System} (run : runInterleaving (k :: order) y = .next z) :
    ∃ x, stepInstance k y = .next x ∧ runInterleaving order x = .next z := by
  rw [runInterleaving] at run
  cases first : stepInstance k y with
  | next x => rw [first] at run; exact ⟨x, rfl, run⟩
  | fault r => rw [first] at run; cases run
  | refused r => rw [first] at run; cases run

/-- Settles O55: the core stored at the instance's own place is the one read there, and no other place is written. -/
theorem instancesAreIsolated : Obligations.InstancesAreIsolated := by
  intro k y z run
  obtain ⟨t, own, rfl⟩ := stepInstance_next run
  constructor
  · rw [own]
    simp
  · intro j other
    have apart : k.val ≠ j.val := fun same => other (Fin.ext same.symm)
    exact Vector.getElem_set_ne k.isLt j.isLt apart

/-- Settles O56, by induction on the order: the first step is the instance's own or, by O55, leaves it as it was. -/
theorem anyInterleavingGivesSameResponses : Obligations.AnyInterleavingGivesSameResponses := by
  intro order
  induction order with
  | nil =>
    intro y z run j
    injection run with run
    rw [run]
    rfl
  | cons k order ih =>
    intro y z run j
    obtain ⟨x, first, rest⟩ := runInterleaving_cons_next run
    obtain ⟨own, others⟩ := instancesAreIsolated k y x first
    by_cases moves : j = k
    · subst moves
      rw [List.count_cons_self, Nat.add_comm, runSteps_add _ (runSteps_one own)]
      exact ih x z rest j
    · rw [List.count_cons_of_ne (Ne.symm moves), ← others j moves]
      exact ih x z rest j

end Sys2Proof.Machine
end

section
namespace Sys2Proof

open Machine Safety

/-! ### The decoder at each legal command word, and the COMPRESS payload taken apart (30_encoding.md R72 to R75, R78) -/

/-- A command word below 16 decodes by its opcode alone (R71, R78). -/
theorem decode_of_word {c : Command} {n : Nat} (small : n < 16) (word : c.cmd = BitVec.ofNat 32 n) :
    decode c = decodeOp n c.payload := by
  have value : c.cmd.toNat = n := by rw [word, BitVec.toNat_ofNat]; omega
  have noReserved : rsvField c.cmd = 0 := by rw [rsvField_eq_zero]; omega
  rw [decode_of_rsv_zero noReserved, value]

/-- The word of INIT (R72, R73). -/
theorem decode_initWord {c : Command} (word : c.cmd = 1) :
    decode c = if c.payload.length = 0 then .command .init else .badOperand :=
  decode_of_word (n := 1) (by decide) word

/-- The word of UPDATE, with any payload (R72, R73). -/
theorem decode_updateWord {c : Command} (word : c.cmd = 2) : decode c = .command (.update c.payload) :=
  decode_of_word (n := 2) (by decide) word

/-- The word of FINALIZE (R72, R73). -/
theorem decode_finalizeWord {c : Command} (word : c.cmd = 3) :
    decode c = if c.payload.length = 0 then .command .finalize else .badOperand :=
  decode_of_word (n := 3) (by decide) word

/-- The word of HASH, with any payload (R72, R73). -/
theorem decode_hashWord {c : Command} (word : c.cmd = 4) : decode c = .command (.hash c.payload) :=
  decode_of_word (n := 4) (by decide) word

/-- The word of COMPRESS (R72 to R74). -/
theorem decode_compressWord {c : Command} (word : c.cmd = 5) :
    decode c = if compressLength c.payload.length then
      .command (.compress (compressState c.payload) (compressBlockBytes c.payload)) else .badOperand :=
  decode_of_word (n := 5) (by decide) word

/-- A COMPRESS payload has a legal length exactly when what follows the state is whole blocks (R73, R74). -/
theorem wholeBlocks_compressBlockBytes (payload : List Byte) :
    wholeBlocks (compressBlockBytes payload) = compressLength payload.length := by
  have bound : 64 ≤ payload.length - 32 ↔ 96 ≤ payload.length := by omega
  simp [wholeBlocks, compressLength, compressBlockBytes, bound]

/-- A COMPRESS payload gives back the blocks behind the state (R74). -/
theorem compressBlockBytes_stateBytes (sin : HashState) (blocks : List Byte) :
    compressBlockBytes (stateBytes sin ++ blocks) = blocks :=
  List.drop_left' (stateBytes_length sin)

/-- The state and the blocks of a COMPRESS payload, packed again, are the payload (R74). -/
theorem stateBytes_append_compressBlockBytes {payload : List Byte} (enough : 32 ≤ payload.length) :
    stateBytes (compressState payload) ++ compressBlockBytes payload = payload := by
  rw [stateBytes_compressState payload enough]
  exact List.take_append_drop 32 payload

/-! ### Decoding and encoding undo each other -/

/-- Settles O1: each instruction's own word, and for COMPRESS the state and the blocks read back from the payload. -/
theorem decodeOfEncode : Obligations.DecodeOfEncode := by
  intro i wf
  cases i with
  | init => exact decode_initWord rfl
  | update data => exact decode_updateWord rfl
  | finalize => exact decode_finalizeWord rfl
  | hash message => exact decode_hashWord rfl
  | compress sin blocks =>
    have legal : compressLength (stateBytes sin ++ blocks).length = true := by
      rw [← wholeBlocks_compressBlockBytes, compressBlockBytes_stateBytes]
      exact wf
    rw [encode, decode_compressWord rfl, if_pos legal, compressState_stateBytes, compressBlockBytes_stateBytes]

/-- An answer of the decoder that depends on a check is an instruction only where the check holds. -/
theorem command_of_ite {P : Prop} [Decidable P] {i j : Instr}
    (decoded : (if P then .command i else .badOperand : Decoded) = .command j) : P ∧ i = j := by
  split at decoded
  next holds => injection decoded with same; exact ⟨holds, same⟩
  next => cases decoded

/-- Settles O2: of the answers of the decoder only the five commands are instructions, and the payload of each is what its operands pack to. -/
theorem encodeOfDecode : Obligations.EncodeOfDecode := by
  rintro ⟨w, p⟩ i decoded
  rcases decode_cases ⟨w, p⟩ with ⟨answer, -⟩ | ⟨rfl, answer⟩ | ⟨rfl, answer⟩ | ⟨rfl, answer⟩ | ⟨rfl, answer⟩ |
    ⟨rfl, answer⟩ <;> rw [answer] at decoded
  · cases decoded
  · obtain ⟨empty, rfl⟩ := command_of_ite decoded
    obtain rfl : p = [] := List.eq_nil_of_length_eq_zero empty
    exact ⟨rfl, rfl⟩
  · cases decoded
    exact ⟨rfl, rfl⟩
  · obtain ⟨empty, rfl⟩ := command_of_ite decoded
    obtain rfl : p = [] := List.eq_nil_of_length_eq_zero empty
    exact ⟨rfl, rfl⟩
  · cases decoded
    exact ⟨rfl, rfl⟩
  · obtain ⟨legal, rfl⟩ := command_of_ite decoded
    obtain ⟨k, -, length⟩ := (compressLength_iff p.length).mp legal
    constructor
    · have enough : 32 ≤ p.length := by omega
      rw [encode, stateBytes_append_compressBlockBytes enough]
    · exact (wholeBlocks_compressBlockBytes p).trans legal

/-- Settles O7: a line assembles to the encoding of the instruction it names, so O1 decodes it. -/
theorem assembledLinesDecode : Obligations.AssembledLinesDecode := by
  refine ⟨decodeOfEncode .init rfl, decodeOfEncode .finalize rfl, fun b => ?_, fun b => ?_, fun w b whole => ?_⟩
  · exact decodeOfEncode (.update (formBytes b)) rfl
  · exact decodeOfEncode (.hash (formBytes b)) rfl
  · exact decodeOfEncode (.compress w (formBytes b)) whole

/-- Settles O6: the payload is a legal one, the state words are the decoder's, and the blocks are what follows the state. -/
theorem compressPayloadIsRead : Obligations.CompressPayloadIsRead := by
  intro payload k atLeastOne length
  have legal : compressLength payload.length = true := (compressLength_iff _).mpr ⟨k, atLeastOne, length⟩
  refine ⟨compressState payload, compressBlockBytes payload, ?_, rfl, ?_, fun j _ => ?_⟩
  · exact (decode_compressWord rfl).trans (if_pos legal)
  · rw [compressBlockBytes, List.length_drop]
    omega
  · rw [compressBlockBytes, List.drop_drop]

/-! ### Legal words and legal lengths (30_encoding.md R72, R73, R75) -/

/-- The legal command words are the numbers 1 to 5 (R72). -/
theorem legalWord_iff (w : Word) : LegalWord w ↔ 1 ≤ w.toNat ∧ w.toNat ≤ 5 := by
  simp only [LegalWord, BitVec.toNat_eq, BitVec.reduceToNat]
  omega

/-- INIT and FINALIZE take no operand (R73). -/
theorem legalLength_noOperand {w : Word} (word : w = 1 ∨ w = 3) (n : Nat) : LegalLength w n ↔ n = 0 := by
  rcases word with rfl | rfl <;> simp [LegalLength]

/-- UPDATE and HASH take every payload (R73). -/
theorem legalLength_message {w : Word} (word : w = 2 ∨ w = 4) (n : Nat) : LegalLength w n := by
  rcases word with rfl | rfl <;> simp [LegalLength]

/-- COMPRESS takes the lengths its decoder checks for (R73, R78). -/
theorem legalLength_compress {w : Word} (word : w = 5) (n : Nat) : LegalLength w n ↔ compressLength n = true := by
  subst word
  simp [LegalLength, compressLength_iff]

/-- Where the check of a decoder's arm is the one R73 makes, the legal lengths decode and the others are bad operands. -/
theorem decode_by_length {c : Command} {P : Prop} [Decidable P] {i : Instr}
    (answer : decode c = if P then .command i else .badOperand) (check : LegalLength c.cmd c.payload.length ↔ P) :
    (LegalLength c.cmd c.payload.length → ∃ j, decode c = .command j) ∧
      (¬ LegalLength c.cmd c.payload.length → decode c = .badOperand) := by
  rw [answer, check]
  exact ⟨fun holds => ⟨i, if_pos holds⟩, fun fails => if_neg fails⟩

/-- A legal word with a legal length is a command, with another length a bad operand (R73, R78). -/
theorem decode_of_legalWord {c : Command} (legal : LegalWord c.cmd) :
    (LegalLength c.cmd c.payload.length → ∃ i, decode c = .command i) ∧
      (¬ LegalLength c.cmd c.payload.length → decode c = .badOperand) := by
  rcases legal with word | word | word | word | word
  · exact decode_by_length (decode_initWord word) (legalLength_noOperand (.inl word) _)
  · exact ⟨fun _ => ⟨_, decode_updateWord word⟩, fun other => absurd (legalLength_message (.inl word) _) other⟩
  · exact decode_by_length (decode_finalizeWord word) (legalLength_noOperand (.inr word) _)
  · exact ⟨fun _ => ⟨_, decode_hashWord word⟩, fun other => absurd (legalLength_message (.inr word) _) other⟩
  · exact decode_by_length (decode_compressWord word) (legalLength_compress word _)

/-- The decoder answers illegal to the words that are not legal, whatever the payload (R75). -/
theorem decode_eq_illegal_iff (c : Command) : decode c = .illegal ↔ ¬ LegalWord c.cmd := by
  constructor
  · intro illegal legal
    obtain ⟨decodes, faults⟩ := decode_of_legalWord legal
    rw [illegal] at decodes faults
    by_cases length : LegalLength c.cmd c.payload.length
    · obtain ⟨i, command⟩ := decodes length
      cases command
    · cases faults length
  · intro notLegal
    rcases decode_cases c with ⟨illegal, -⟩ | others
    · exact illegal
    · exact absurd (others.imp And.left (.imp And.left (.imp And.left (.imp And.left And.left)))) notLegal

/-- Settles O3: the five words are encodings, which O1 decodes, and the four others are not legal. -/
theorem opcodeMapWords : Obligations.OpcodeMapWords := by
  have illegal (w : Word) (outside : ¬ (1 ≤ w.toNat ∧ w.toNat ≤ 5)) : decode ⟨w, []⟩ = .illegal :=
    (decode_eq_illegal_iff ⟨w, []⟩).mpr (outside ∘ (legalWord_iff w).mp)
  refine ⟨decodeOfEncode .init rfl, decodeOfEncode (.update _) rfl, decodeOfEncode .finalize rfl,
    decodeOfEncode (.hash _) rfl, decodeOfEncode (.compress ⟨0, 0, 0, 0, 0, 0, 0, 0⟩ (zeros 64)) rfl, ?_, ?_, ?_, ?_⟩
  all_goals exact illegal _ (by decide)

/-- With FAULT = 0 a step with a command at the head does what decoding it says (R78, R183). -/
theorem step_of_ok {s : State} {c : Command} {rest : List HostMove} (ok : s.fault = .ok)
    (next : s.host = .command c :: rest) : step s = runDecoded (decode c) { s with host := rest } := by
  rw [step_command next, accept, unlessFaulted_of_ok (s := { s with host := rest }) ok]

/-- Settles O4: the illegal words are those outside 1 to 5, and decoding one enters E_ILLEGAL. -/
theorem illegalWordsFault : Obligations.IllegalWordsFault := by
  constructor
  · intro c
    rw [decode_eq_illegal_iff, legalWord_iff]
    omega
  · intro s c rest ok next illegal
    rw [step_of_ok ok next, illegal]
    rfl

/-- Settles O5: a legal length decodes, and decoding another enters E_OPERAND. -/
theorem payloadLengthsDecide : Obligations.PayloadLengthsDecide := by
  intro c legal
  obtain ⟨decodes, faults⟩ := decode_of_legalWord legal
  refine ⟨decodes, fun other s rest ok next => ?_⟩
  rw [step_of_ok ok next, faults other]
  rfl

end Sys2Proof
end

section
namespace Sys2Proof.Safety

open Sys2Proof Sys2Proof.Machine

/-! ### The response to a command (30_encoding.md R77) -/

/-- The whole blocks of a message and its padded tail are the padded message (41_hasher.md R147, R148, R150). -/
theorem take_append_pad (m : List Byte) :
    m.take (64 * (m.length / 64)) ++ pad (m.drop (64 * (m.length / 64))) (bitLength m.length) = paddedMessage m := by
  have tailLength : (m.drop (64 * (m.length / 64))).length = m.length % 64 := by rw [List.length_drop]; omega
  have zeroCount : 64 * padBlocks (m.length % 64) - m.length % 64 - 9 = padZeros m.length := by
    simp only [padBlocks, padZeros]
    split <;> omega
  simp only [pad, paddedMessage, tailLength, zeroCount, bitLength, Nat.mul_comm m.length 8, ← List.append_assoc,
    List.take_append_drop]

/-- HASH answers the SHA-256 of its message (41_hasher.md R150, R154). -/
theorem digest_hashMessage (m : List Byte) : digest (hashMessage m) = sha256 m := by
  have wholePart : (m.take (64 * (m.length / 64))).length % 64 = 0 := by rw [List.length_take]; omega
  rw [sha256, ← take_append_pad, compressBlocks_append _ _ _ wholePart]
  rfl

/-- The RDATA of a command that succeeds and leaves the core in state `t`: R77's table, by the command word. -/
def commandData (c : Command) (t : State) : List Byte :=
  if c.cmd = 3 then digest t.h
  else if c.cmd = 4 then sha256 c.payload
  else if c.cmd = 5 then stateBytes (compressBlocks (compressState c.payload) (compressBlockBytes c.payload))
  else []

/-- From `s` to `t` the core gives one response: FAULT as it is in `t`, with `data` on success and no data on a fault. -/
def RespondsWith (data : List Byte) (s t : State) : Prop :=
  t.responses = s.responses ++ [⟨statusWord t.fault, if t.fault = .ok then data else []⟩]

/-- The sticky answer has no data (R185). -/
theorem respondsWith_sticky {s : State} (faulted : s.fault ≠ .ok) (data : List Byte) :
    RespondsWith data s (respond s.fault [] s) := by
  simp [RespondsWith, faulted]

/-- Fault entry has no data (R184). -/
theorem respondsWith_raised {code : FaultCode} (isFault : code ≠ .ok) (data : List Byte) (s : State) :
    RespondsWith data s (respond code [] { s with fault := code }) := by
  simp [RespondsWith, isFault]

/-- A success answers its data, whatever else it wrote. -/
theorem respondsWith_success {s u : State} (data : List Byte) (ok : u.fault = .ok)
    (given : u.responses = s.responses) : RespondsWith data s (respond .ok data u) := by
  simp [RespondsWith, ok, given]

/-- Running an instruction gives one response, with the data of its command (R77). -/
theorem exec_respondsWith {i : Instr} {s t : State} (run : exec i s = .next t) :
    RespondsWith (commandData (encode i) t) s t := by
  cases i with
  | init =>
    rcases execInit_cases run with ⟨faulted, rfl⟩ | ⟨ok, rfl⟩
    · exact respondsWith_sticky faulted _
    · exact respondsWith_success [] ok rfl
  | update d =>
    rcases execUpdate_cases run with ⟨faulted, rfl⟩ | ⟨-, code, rfl, cause⟩ | ⟨ok, -, -, rfl⟩
    · exact respondsWith_sticky faulted _
    · have isFault : code ≠ .ok := by
        rcases cause with ⟨-, rfl⟩ | ⟨-, rfl⟩ | ⟨-, rfl, -⟩ <;> decide
      exact respondsWith_raised isFault _ s
    · exact respondsWith_success [] ((absorb_fault d s).trans ok) (absorb_responses d s)
  | finalize =>
    rcases execFinalize_cases run with ⟨faulted, rfl⟩ | ⟨-, code, rfl, cause⟩ | ⟨ok, -, rfl⟩
    · exact respondsWith_sticky faulted _
    · have isFault : code ≠ .ok := by
        rcases cause with ⟨-, rfl⟩ | ⟨-, rfl⟩ <;> decide
      exact respondsWith_raised isFault _ s
    · exact respondsWith_success (digest (finalHash s)) ok rfl
  | hash m =>
    rcases execHash_cases run with ⟨faulted, rfl⟩ | ⟨-, -, rfl⟩ | ⟨ok, -, rfl⟩
    · exact respondsWith_sticky faulted _
    · exact respondsWith_raised (by decide) _ s
    · rw [digest_hashMessage]
      exact respondsWith_success (sha256 m) ok rfl
  | compress sin blocks =>
    rcases execCompress_cases run with ⟨faulted, rfl⟩ | ⟨-, -, rfl⟩ | ⟨ok, -, rfl⟩
    · exact respondsWith_sticky faulted _
    · exact respondsWith_raised (by decide) _ s
    · have operands (t : State) :
          commandData (encode (.compress sin blocks)) t = stateBytes (compressBlocks sin blocks) := by
        simp [commandData, encode, compressState_stateBytes, compressBlockBytes_stateBytes]
      rw [operands]
      exact respondsWith_success _ ok rfl

/-- Accepting a command gives one response, with the command's data (R77). -/
theorem accept_respondsWith {c : Command} {s t : State} (run : accept c s = .next t) :
    RespondsWith (commandData c t) s t := by
  rcases accept_cases run with ⟨faulted, rfl⟩ | ⟨-, -, rfl⟩ | ⟨-, -, rfl⟩ | ⟨-, i, decoded, ran⟩
  · exact respondsWith_sticky faulted _
  · exact respondsWith_raised (by decide) _ s
  · exact respondsWith_raised (by decide) _ s
  · obtain ⟨rfl, -⟩ := encodeOfDecode c i decoded
    exact exec_respondsWith ran

/-- Accepting a command always answers a next state. -/
theorem accept_answers (c : Command) (s : State) : ∃ t, accept c s = .next t := by
  by_cases ok : s.fault = .ok
  · rw [accept, unlessFaulted_of_ok ok]
    cases decode c with
    | illegal => exact ⟨_, rfl⟩
    | badOperand => exact ⟨_, rfl⟩
    | command i => exact exec_answers i s
  · exact ⟨_, unlessFaulted_of_faulted ok _⟩

/-- STATUS is the value of FAULT (R77). -/
theorem statusWord_toNat (f : FaultCode) : (statusWord f).toNat = (faultBits f).toNat := by
  cases f <;> rfl

/-- The fault codes are 0 to 5 (60_exceptions.md R181). -/
theorem faultBits_le (f : FaultCode) : (faultBits f).toNat ≤ 5 := by
  cases f <;> decide

/-- Settles O11: the response of `accept_respondsWith`, read clause by clause from R77's table. -/
theorem oneResponsePerCommand : Obligations.OneResponsePerCommand := by
  intro s c rest next
  obtain ⟨t, run⟩ := accept_answers c { s with host := rest }
  have responds := accept_respondsWith run
  refine ⟨t, _, (step_command next).trans run, responds, statusWord_toNat _, faultBits_le _,
    ?_, ?_, ?_, ?_, ?_⟩
  · exact fun faulted => if_neg faulted
  · rintro ok (word | word) <;> simp [commandData, ok, word]
  · intro ok word
    simp [commandData, ok, word]
  · intro ok word
    simp [commandData, sha256, ok, word]
  · intro ok word
    simp [commandData, compressBlockBytes, ok, word]

end Sys2Proof.Safety
end

section
namespace Sys2Proof.Machine

/-! ### The word operations, bit by bit (40_compression.md R101, R102, R107, R108) -/

/-- Bit `i` of a rotation: the shifted-down bits below place 32 − n, the wrapped bits from there on (R101). -/
theorem getLsbD_rotr (x : Word) {n i : Nat} (below : n ≤ 31) (inWord : i < 32) :
    (rotr x n).getLsbD i = x.getLsbD ((i + n) % 32) := by
  rw [rotr, BitVec.getLsbD_or, BitVec.getLsbD_ushiftRight, BitVec.getLsbD_shiftLeft]
  rcases Nat.lt_or_ge (i + n) 32 with stays | wraps
  · have notWrapped : i < 32 - n := by omega
    simp [Nat.mod_eq_of_lt stays, notWrapped, Nat.add_comm n i]
  · have wrapped : ¬ i < 32 - n := by omega
    have place : i - (32 - n) = (i + n) % 32 := by omega
    rw [BitVec.getLsbD_of_ge x (n + i) (by omega)]
    simp [inWord, wrapped, place]

/-- Bit `i` of a shift: bit `i + n`, which is 0 from place 32 on (R102). -/
theorem getLsbD_shr (x : Word) (n i : Nat) : (shr x n).getLsbD i = x.getLsbD (i + n) := by
  rw [shr, BitVec.getLsbD_ushiftRight, Nat.add_comm]

/-- Each bit of Ch is chosen by the bit of `e` (R107). -/
theorem getLsbD_ch (e f g : Word) (i : Nat) :
    (ch e f g).getLsbD i = if e.getLsbD i then f.getLsbD i else g.getLsbD i := by
  rcases Nat.lt_or_ge i 32 with inWord | outside
  · simp only [ch, BitVec.getLsbD_xor, BitVec.getLsbD_and, BitVec.getLsbD_not, inWord]
    cases e.getLsbD i <;> simp
  · simp [BitVec.getLsbD_of_ge _ i outside]

/-- Each bit of Maj is the one that at least two of the three words have (R108). -/
theorem getLsbD_maj (a b c : Word) (i : Nat) :
    (maj a b c).getLsbD i = if a.getLsbD i = b.getLsbD i then a.getLsbD i else c.getLsbD i := by
  simp only [maj, BitVec.getLsbD_xor, BitVec.getLsbD_and]
  generalize a.getLsbD i = p, b.getLsbD i = q, c.getLsbD i = r
  revert p q r
  decide

/-- Settles O44: one lemma per operation. -/
theorem wordOperationsBitwise : Obligations.WordOperationsBitwise :=
  ⟨fun x _ _ _ => getLsbD_rotr x, getLsbD_shr, getLsbD_ch, getLsbD_maj⟩

end Sys2Proof.Machine
end

section
namespace Sys2Proof.Machine

/-! ### The message schedule and the rounds (40_compression.md R109 to R115) -/

/-- Two extensions of the same words agree wherever both have a word (R110: a word never changes). -/
theorem extendSchedule_getD_agree (ws : List Word) {m n t : Nat} (inFirst : t < ws.length + m)
    (inSecond : t < ws.length + n) : (extendSchedule m ws).getD t 0 = (extendSchedule n ws).getD t 0 := by
  have grown (j k : Nat) (inShorter : t < ws.length + j) :
      (extendSchedule (j + k) ws).getD t 0 = (extendSchedule j ws).getD t 0 := by
    rw [extendSchedule_add, extendSchedule_getD_old _ _ _ (by simpa using inShorter)]
  rcases Nat.le_total m n with shorter | longer
  · rw [← Nat.add_sub_cancel' shorter, grown m (n - m) inFirst]
  · rw [← Nat.add_sub_cancel' longer, grown n (m - n) inSecond]

@[simp] theorem schedule_length (block : List Byte) : (schedule block).length = 64 := by simp [schedule]

/-- The schedule's word `t` stands in every extension of the block's words that reaches `t`. -/
theorem schedule_getD {block : List Byte} (n : Nat) {t : Nat} (inSchedule : t < 64) (reached : t < 16 + n) :
    (schedule block).getD t 0 = (extendSchedule n (blockWords block)).getD t 0 :=
  extendSchedule_getD_agree _ (by simpa using inSchedule) (by simpa using reached)

/-- The first 16 schedule words are the block's own (R109). -/
theorem schedule_getD_block {block : List Byte} {t : Nat} (first : t < 16) :
    (schedule block).getD t 0 = be32 block (4 * t) := by
  rw [schedule_getD 0 (by omega) first, extendSchedule]
  simp [blockWords, first]

/-- Schedule word `16 + n` is the one the recurrence gives after the words before it (R110). -/
theorem schedule_getD_next {block : List Byte} {n : Nat} (later : n < 48) :
    (schedule block).getD (16 + n) 0 = nextScheduleWord (extendSchedule n (blockWords block)) := by
  rw [schedule_getD (n + 1) (by omega) (by omega), extendSchedule_succ, List.getD_append_right _ _ _ _ (by simp)]
  simp

/-- Settles O45: `schedule_getD_block` and `schedule_getD_next`; the words the recurrence reads are the schedule's. -/
theorem scheduleMeetsRecurrence : Obligations.ScheduleMeetsRecurrence := by
  intro block t
  refine ⟨schedule_length block, schedule_getD_block, fun later inSchedule => ?_⟩
  obtain ⟨n, rfl⟩ := Nat.exists_eq_add_of_le later
  have read {back : Nat} (positive : 1 ≤ back) (reach : back ≤ 16) :
      (schedule block).getD (16 + n - back) 0 = (extendSchedule n (blockWords block)).getD (16 + n - back) 0 :=
    schedule_getD n (by omega) (by omega)
  rw [schedule_getD_next (by omega), nextScheduleWord, extendSchedule_length, blockWords_length,
    read (back := 2), read (back := 7), read (back := 15), read (back := 16)] <;> decide

/-- The rounds as a fold over the first `t` pairs of a round constant and a word (R113). -/
theorem varsAfter_eq_foldl {ws : List Word} (enough : ws.length = 64) (v : Vars) {t : Nat} (inTable : t ≤ 64) :
    varsAfter ws v t = ((kTable.zip ws).take t).foldl (fun v kw => round kw.1 kw.2 v) v := by
  induction t with
  | zero => rfl
  | succ t ih =>
    have inKTable : t < kTable.length := inTable
    have inWords : t < ws.length := by omega
    have inPairs : t < (kTable.zip ws).length := by rw [List.length_zip]; omega
    rw [varsAfter, ih (by omega), List.take_succ_eq_append_getElem inPairs, List.foldl_append, List.getElem_zip,
      roundConstant, List.getD_eq_getElem _ _ inKTable, List.getD_eq_getElem _ _ inWords]
    rfl

/-- Settles O46: the 64 pairs are all of them, so the fold of `varsAfter_eq_foldl` takes each once. -/
theorem sixtyFourRoundsInOrder : Obligations.SixtyFourRoundsInOrder := by
  intro hin block
  have pairs : (kTable.zip (schedule block)).length = 64 := by simp
  refine ⟨pairs, ?_⟩
  rw [compressBlock, varsAfter_eq_foldl (schedule_length block) _ (Nat.le_refl 64), List.take_of_length_le (by omega)]

/-! ### The sliding window (40_compression.md R117) -/

/-- The 16 words from `W[t]` on. They reach past `W[63]` in the last rounds, so they are read from a schedule extended
by `t` words, whatever `t` is. -/
def scheduleWindow (block : List Byte) (t : Nat) : List Word := (extendSchedule t (blockWords block)).drop t

theorem scheduleWindow_getD (block : List Byte) (t i : Nat) :
    (scheduleWindow block t).getD i 0 = (extendSchedule t (blockWords block)).getD (t + i) 0 := by
  simp [scheduleWindow, List.getD_eq_getElem?_getD]

/-- Before the first round the window is the block's words (R109). -/
theorem scheduleWindow_zero (block : List Byte) : scheduleWindow block 0 = blockWords block := rfl

/-- The window's first word is the schedule word of the round. -/
theorem scheduleWindow_head {block : List Byte} {t : Nat} (inSchedule : t < 64) :
    (scheduleWindow block t).getD 0 0 = (schedule block).getD t 0 := by
  rw [scheduleWindow_getD, schedule_getD t inSchedule (by omega), Nat.add_zero]

/-- Sliding drops `W[t]` and brings in `W[t+16]` (R110). -/
theorem slideWindow_scheduleWindow (block : List Byte) (t : Nat) :
    slideWindow (scheduleWindow block t) = scheduleWindow block (t + 1) := by
  have next : nextScheduleWord (extendSchedule t (blockWords block)) =
      smallSigma1 ((scheduleWindow block t).getD 14 0) + (scheduleWindow block t).getD 9 0
        + smallSigma0 ((scheduleWindow block t).getD 1 0) + (scheduleWindow block t).getD 0 0 := by
    simp only [scheduleWindow_getD, nextScheduleWord, extendSchedule_length, blockWords_length, Nat.add_comm 16 t,
      Nat.reduceSubDiff, Nat.add_sub_cancel, Nat.add_zero]
  rw [slideWindow, ← next, scheduleWindow, scheduleWindow, extendSchedule_succ, List.drop_drop,
    List.drop_append_of_le_length (by simp)]

/-- `n` rounds with the window of round `t` go on from round `t` as `n` rounds with the schedule do. -/
theorem windowRounds_scheduleWindow (block : List Byte) (v : Vars) {n t : Nat} (inSchedule : t + n ≤ 64) :
    windowRounds n t (scheduleWindow block t) (varsAfter (schedule block) v t) =
      varsAfter (schedule block) v (t + n) := by
  induction n generalizing t with
  | zero => rfl
  | succ n ih =>
    have tail := ih (t := t + 1) (by omega)
    rw [windowRounds, slideWindow_scheduleWindow, scheduleWindow_head (by omega), ← varsAfter, tail]
    congr 1
    omega

/-- Settles O48: `windowRounds_scheduleWindow` for all 64 rounds from round 0. -/
theorem slidingWindowEqualsSchedule : Obligations.SlidingWindowEqualsSchedule := by
  intro hin block
  rw [compressBlockWindow, compressBlock, ← scheduleWindow_zero]
  exact congrArg (mixState hin) (windowRounds_scheduleWindow block (loadVars hin) (n := 64) (t := 0) (by omega))

end Sys2Proof.Machine
end

section
namespace Sys2Proof.Machine

/-! ### Blocks in order and the COMPRESS command (40_compression.md R116, R119) -/

/-- Settles O47: `compressBlocks_nil` and `compressBlocks_append`. -/
theorem compressBlocksInOrder : Obligations.CompressBlocksInOrder :=
  ⟨compressBlocks_nil, compressBlocks_append⟩

/-- The engine on a sequence of blocks: each block from the state the one before gave (R116). -/
theorem compressBlocks_flatten (h : HashState) {bs : List (List Byte)} (blocks : ∀ b ∈ bs, b.length = 64) :
    compressBlocks h bs.flatten = bs.foldl compressBlock h := by
  induction bs generalizing h with
  | nil => rfl
  | cons b bs ih =>
    obtain ⟨first, others⟩ := List.forall_mem_cons.mp blocks
    rw [List.flatten_cons, compressBlocks_append _ _ _ (by omega), compressBlocks_block _ _ first, ih _ others,
      List.foldl_cons]

/-- Blocks of 64 bytes each have 64 bytes for each block together. -/
theorem length_flatten_blocks {bs : List (List Byte)} (blocks : ∀ b ∈ bs, b.length = 64) :
    bs.flatten.length = 64 * bs.length := by
  rw [List.length_flatten, List.map_congr_left blocks, List.map_const', List.sum_replicate, smul_eq_mul, Nat.mul_comm]

/-- A whole number of blocks, at least one: some bytes, and a multiple of 64 of them (R73). -/
theorem wholeBlocks_iff (blocks : List Byte) : wholeBlocks blocks = true ↔ blocks ≠ [] ∧ blocks.length % 64 = 0 := by
  rw [wholeBlocks, Bool.and_eq_true, decide_eq_true_eq, decide_eq_true_eq, ← List.length_pos_iff]
  omega

/-- COMPRESS of whole blocks answers the compressed state and nothing else changes (R119). -/
theorem exec_compress_whole {s : State} (sin : HashState) {blocks : List Byte} (ok : s.fault = .ok)
    (whole : wholeBlocks blocks = true) :
    exec (.compress sin blocks) s = succeed (stateBytes (compressBlocks sin blocks)) s := by
  rw [exec, execCompress, unlessFaulted_of_ok ok, if_pos whole]

/-- COMPRESS of anything else enters E_OPERAND (R119). -/
theorem exec_compress_partial {s : State} (sin : HashState) {blocks : List Byte} (ok : s.fault = .ok)
    (notWhole : ¬ wholeBlocks blocks = true) : exec (.compress sin blocks) s = raiseFault .operand s := by
  rw [exec, execCompress, unlessFaulted_of_ok ok, if_neg notWhole]

/-- Settles O33: one or more blocks are whole, and the engine folds over them by `compressBlocks_flatten`. -/
theorem compressFoldsBlocks : Obligations.CompressFoldsBlocks := by
  intro s sin bs ok some blocks
  have byteCount := length_flatten_blocks blocks
  have positive := List.length_pos_iff.mpr some
  have whole : wholeBlocks bs.flatten = true :=
    (wholeBlocks_iff _).mpr ⟨List.length_pos_iff.mp (by omega), by omega⟩
  rw [exec_compress_whole sin ok whole, compressBlocks_flatten sin blocks, succeed_eq]

/-- Settles O34: no block, or a partial one, is not whole blocks. -/
theorem compressNeedsWholeBlocks : Obligations.CompressNeedsWholeBlocks := by
  intro s sin blocks ok bad
  have notWhole : ¬ wholeBlocks blocks = true := by
    rw [wholeBlocks_iff]
    rintro ⟨nonempty, multiple⟩
    exact bad.elim nonempty (· multiple)
  rw [exec_compress_partial sin ok notWhole]
  rfl

end Sys2Proof.Machine
end

section
namespace Sys2Proof.Safety

open Sys2Proof Sys2Proof.Machine

/-! ### The hasher commands with FAULT = 0 (41_hasher.md R140 to R142, R152, R154) -/

/-- The length limit of R142 and R154, as the statements write it. -/
theorem lengthLimit_eq : Config.lengthLimit = 2 ^ 61 := rfl

/-- INIT starts a context in every phase (R140). -/
theorem exec_init_of_ok {s : State} (ok : s.fault = .ok) : exec .init s = succeed [] (startContext s) :=
  unlessFaulted_of_ok ok _

section
variable {d : List Byte} {s : State} (ready : Absorbing s)
include ready

/-- UPDATE of an open context comes to the length check (R141, R142). -/
theorem exec_update_of_absorbing :
    exec (.update d) s =
      if 2 ^ 61 ≤ messageLength s + d.length then raiseFault .length s else succeed [] (absorb d s) := by
  obtain ⟨ok, isOpen⟩ := ready
  rw [exec, execUpdate, unlessFaulted_of_ok ok, inContext_of_absorbing isOpen, lengthLimit_eq]

/-- UPDATE at or beyond the length limit enters E_LENGTH (R142). -/
theorem exec_update_of_long (long : 2 ^ 61 ≤ messageLength s + d.length) :
    exec (.update d) s = raiseFault .length s := by
  rw [exec_update_of_absorbing ready, if_pos long]

/-- UPDATE below the length limit absorbs its chunk (R141). -/
theorem exec_update_of_short (short : messageLength s + d.length < 2 ^ 61) :
    exec (.update d) s = succeed [] (absorb d s) := by
  rw [exec_update_of_absorbing ready, if_neg (by omega)]

end

/-- FINALIZE of an open context compresses the padded tail (R152). -/
theorem exec_finalize_of_absorbing {s : State} (ready : Absorbing s) :
    exec .finalize s = succeed (digest (finalHash s)) (finishContext s) := by
  obtain ⟨ok, isOpen⟩ := ready
  rw [exec, execFinalize, unlessFaulted_of_ok ok, inContext_of_absorbing isOpen]

/-- HASH with FAULT = 0 comes to the length check, and answers SHA-256 below the limit (R154). -/
theorem exec_hash_of_ok {s : State} (ok : s.fault = .ok) (m : List Byte) :
    exec (.hash m) s = if 2 ^ 61 ≤ m.length then raiseFault .length s else succeed (sha256 m) s := by
  rw [exec, execHash, unlessFaulted_of_ok ok, lengthLimit_eq, digest_hashMessage]

/-- An open context stays open through UPDATE. -/
theorem absorbing_absorb {s : State} (ready : Absorbing s) (d : List Byte) : Absorbing (absorb d s) :=
  ⟨(absorb_fault d s).trans ready.1, (absorb_phase d s).trans ready.2⟩

/-- Settles O23: INIT with FAULT = 0 starts a context. -/
theorem initStartsContext : Obligations.InitStartsContext :=
  fun _ ok => exec_init_of_ok ok

/-- Settles O24: each register by its closed form after UPDATE. -/
theorem updateAbsorbsChunk : Obligations.UpdateAbsorbsChunk := by
  intro s d ready short
  refine ⟨_, exec_update_of_short ready short, absorb_h d s, absorb_total_toNat short, absorb_nstaged d s,
    stagedBytes_absorb d s, ?_⟩
  simp [statusWord, faultBits]

/-- No byte absorbed leaves the state as it was (R141 corner case 1). -/
theorem absorb_nil (s : State) : absorb [] s = s := by
  have below := s.nstaged.isLt
  rw [absorb_of_fits (by simpa using below)]
  simp [setStaged, writeBuf]

/-- Settles O26: UPDATE of no byte is below the limit and absorbs nothing. -/
theorem emptyUpdateChangesNothing : Obligations.EmptyUpdateChangesNothing := by
  intro s ready short
  have absorbs : exec (.update []) s = succeed [] (absorb [] s) := exec_update_of_short ready short
  rw [absorbs, absorb_nil, succeed_eq]

/-- UPDATE below the length limit adds the length of its chunk to the message's. -/
theorem messageLength_absorb {d : List Byte} {s : State} (short : messageLength s + d.length < 2 ^ 61) :
    messageLength (absorb d s) = messageLength s + d.length := by
  rw [messageLength, absorb_total_toNat short, absorb_nstaged, messageLength]
  omega

/-- Settles O27: the two branches of the length check, and the new length of the message in the second. -/
theorem updateLengthLimit : Obligations.UpdateLengthLimit := by
  intro s d ready
  refine ⟨fun long => exec_update_of_long ready long, fun short => ?_⟩
  have grown : messageLength (absorb d s) < 2 ^ 61 := (messageLength_absorb short).trans_lt short
  refine ⟨_, exec_update_of_short ready short, (absorbing_absorb ready d).1, ?_⟩
  change messageLength (absorb d s) * 8 < 2 ^ 64
  omega

/-- Settles O31: HASH below the length limit. -/
theorem hashAnswersSha256 : Obligations.HashAnswersSha256 := by
  intro s m ok short
  rw [exec_hash_of_ok ok, if_neg (by omega), succeed_eq]

/-- Settles O32: HASH at and beyond the length limit. -/
theorem hashLengthLimit : Obligations.HashLengthLimit := by
  intro s m ok long
  rw [exec_hash_of_ok ok, if_pos long]
  rfl

/-- Settles O43: R32 keeps the product below 2^64. -/
theorem bitLengthIsExact : Obligations.BitLengthIsExact := by
  intro s isOpen inv
  obtain ⟨-, -, bounded⟩ := inv isOpen
  rw [messageLength] at bounded
  rw [bitLength, BitVec.toNat_ofNat, messageLength]
  omega

/-- Settles O30: the bit length is exact by O43, and FINALIZE pads with it. -/
theorem finalizeAnswersDigest : Obligations.FinalizeAnswersDigest := by
  intro s ready inv
  exact ⟨bitLength (messageLength s), bitLengthIsExact s ready.2 inv, exec_finalize_of_absorbing ready⟩

end Sys2Proof.Safety
end

section
namespace Sys2Proof.Safety

open Sys2Proof Sys2Proof.Machine

/-! ### The context as a function of the bytes absorbed (41_hasher.md R143 to R145) -/

/-- `t` holds the context that absorbing `bytes` gives from chaining value `h` and count `total`: the whole blocks are compressed and counted, the rest is staged (R144, from any start). -/
structure HoldsFrom (h : HashState) (total : U64) (bytes : List Byte) (t : State) : Prop where
  hash : t.h = compressBlocks h (bytes.take (64 * (bytes.length / 64)))
  count : t.total = total + BitVec.ofNat 64 (64 * (bytes.length / 64))
  staged : stagedBytes t = bytes.drop (64 * (bytes.length / 64))

section
variable {h : HashState} {total : U64} {bytes : List Byte} {t : State} (holds : HoldsFrom h total bytes t)
include holds

/-- NSTAGED is the length of the rest. -/
theorem HoldsFrom.nstaged : t.nstaged.toNat = bytes.length % 64 := by
  rw [← stagedBytes_length, holds.staged, List.length_drop]
  omega

/-- The context is a function of the bytes, the chaining value and the count alone (R145). -/
theorem HoldsFrom.unique {u : State} (other : HoldsFrom h total bytes u) :
    t.h = u.h ∧ t.total = u.total ∧ t.nstaged = u.nstaged ∧ stagedBytes t = stagedBytes u :=
  ⟨holds.hash.trans other.hash.symm, holds.count.trans other.count.symm,
    BitVec.eq_of_toNat_eq (holds.nstaged.trans other.nstaged.symm), holds.staged.trans other.staged.symm⟩

/-- An answer leaves the context. -/
theorem HoldsFrom.respond (code : FaultCode) (data : List Byte) : HoldsFrom h total bytes (respond code data t) :=
  ⟨holds.hash, holds.count, holds.staged⟩

/-- The blocks of the bytes absorbed and of a further chunk: first those of the bytes, then those of the rest and the chunk. -/
theorem HoldsFrom.blockCount (d : List Byte) :
    64 * ((bytes ++ d).length / 64) = 64 * (bytes.length / 64) + 64 * ((t.nstaged.toNat + d.length) / 64) := by
  rw [holds.nstaged, List.length_append]
  omega

/-- UPDATE goes on from the bytes absorbed: the context is then that of the bytes and the chunk (R143). -/
theorem HoldsFrom.absorb (d : List Byte) : HoldsFrom h total (bytes ++ d) (absorb d t) where
  hash := by
    have firstBlocks : (bytes.take (64 * (bytes.length / 64))).length % 64 = 0 := by rw [List.length_take]; omega
    rw [absorb_h, holds.hash, holds.staged, ← compressBlocks_append _ _ _ firstBlocks, holds.blockCount,
      List.take_add, List.take_append_of_le_length (l₁ := bytes) (by omega),
      List.drop_append_of_le_length (l₁ := bytes) (by omega)]
  count := by rw [absorb_total, holds.count, holds.blockCount, BitVec.ofNat_add, BitVec.add_assoc]
  staged := by
    rw [stagedBytes_absorb, holds.staged, holds.blockCount, ← List.drop_drop,
      List.drop_append_of_le_length (l₁ := bytes) (by omega)]

end

/-- Every context holds its own staged bytes, which make no block. -/
theorem holdsFrom_stagedBytes (s : State) : HoldsFrom s.h s.total (stagedBytes s) s := by
  have noBlock : s.nstaged.toNat / 64 = 0 := Nat.div_eq_of_lt s.nstaged.isLt
  constructor <;> simp [noBlock]

/-- A context that has absorbed `m` is an open one that holds it from IV and 0 (R144). -/
theorem absorbed_iff {m : List Byte} (short : m.length < 2 ^ 61) (s : State) :
    Absorbed m s ↔ Absorbing s ∧ HoldsFrom iv 0 m s := by
  constructor
  · rintro ⟨ready, total, -, staged, hash⟩
    rw [total] at staged hash
    refine ⟨ready, hash, BitVec.eq_of_toNat_eq ?_, staged⟩
    rw [total, zero_add, BitVec.toNat_ofNat]
    omega
  · rintro ⟨ready, holds⟩
    have total : s.total.toNat = 64 * (m.length / 64) := by
      rw [holds.count, zero_add, BitVec.toNat_ofNat]
      omega
    exact ⟨ready, total, holds.nstaged, total ▸ holds.staged, total ▸ holds.hash⟩

/-- INIT has absorbed nothing (R140, R144). -/
theorem absorbed_startContext {s : State} (ok : s.fault = .ok) : Absorbed [] (startContext s) :=
  (absorbed_iff (by decide) _).mpr ⟨⟨ok, rfl⟩, by constructor <;> rfl⟩

section
variable {m : List Byte} {s : State} (absorbed : Absorbed m s)
include absorbed

/-- TOTAL and NSTAGED count the message absorbed (R144). -/
theorem messageLength_of_absorbed : messageLength s = m.length := by
  obtain ⟨-, total, nstaged, -, -⟩ := absorbed
  rw [messageLength, total, nstaged]
  exact Nat.div_add_mod _ _

/-- UPDATE absorbs its chunk while the whole message stays below the length limit (R142). -/
theorem exec_update_of_absorbed {d : List Byte} (short : (m ++ d).length < 2 ^ 61) :
    exec (.update d) s = succeed [] (absorb d s) := by
  have length := messageLength_of_absorbed absorbed
  obtain ⟨ready, -⟩ := absorbed
  exact exec_update_of_short ready (by rwa [length, ← List.length_append])

/-- UPDATE appends its chunk to the message absorbed (R144). -/
theorem absorbed_absorb {d : List Byte} (short : (m ++ d).length < 2 ^ 61) : Absorbed (m ++ d) (absorb d s) := by
  have mShort : m.length < 2 ^ 61 := by rw [List.length_append] at short; omega
  obtain ⟨ready, holds⟩ := (absorbed_iff mShort s).mp absorbed
  exact (absorbed_iff short _).mpr ⟨absorbing_absorb ready d, holds.absorb d⟩

/-- FINALIZE compresses what HASH compresses of the same message (R152, R154). -/
theorem finalHash_of_absorbed : finalHash s = hashMessage m := by
  have length := messageLength_of_absorbed absorbed
  obtain ⟨-, total, -, staged, hash⟩ := absorbed
  rw [finalHash, length, staged, hash, total]
  rfl

/-- FINALIZE answers the SHA-256 of the message absorbed (R150, R152). -/
theorem exec_finalize_of_absorbed : exec .finalize s = succeed (sha256 m) (finishContext s) := by
  have final := finalHash_of_absorbed absorbed
  obtain ⟨ready, -⟩ := absorbed
  rw [exec_finalize_of_absorbing ready, final, digest_hashMessage]

end

/-- Settles O29: both ways hold the staged bytes and both payloads, from the same H and TOTAL. -/
theorem updatesConcatenate : Obligations.UpdatesConcatenate := by
  intro s d1 d2 ready room
  change messageLength s + d1.length + d2.length < 2 ^ 61 at room
  have grown : messageLength (absorb d1 s) = messageLength s + d1.length := messageLength_absorb (by omega)
  have both : messageLength s + (d1 ++ d2).length < 2 ^ 61 := by rw [List.length_append]; omega
  have room2 : messageLength (respond .ok [] (absorb d1 s)) + d2.length < 2 ^ 61 := by
    change messageLength (absorb d1 s) + d2.length < 2 ^ 61
    omega
  have twoUpdates := (((holdsFrom_stagedBytes s).absorb d1).respond .ok []).absorb d2 |>.respond .ok []
  have oneUpdate := ((holdsFrom_stagedBytes s).absorb (d1 ++ d2)).respond .ok []
  rw [List.append_assoc] at twoUpdates
  obtain ⟨h, total, nstaged, staged⟩ := twoUpdates.unique oneUpdate
  exact ⟨_, _, _, exec_update_of_short ready (by omega), exec_update_of_short (absorbing_absorb ready d1) room2,
    exec_update_of_short ready both, h, total, nstaged, by simp, staged⟩

end Sys2Proof.Safety
end

section
namespace Sys2Proof.Safety

open Sys2Proof Sys2Proof.Machine

/-! ### Whole messages (41_hasher.md R144, R145, R150, R155) -/

/-- A run whose first step goes on is the run from the next state. -/
theorem runSteps_succ_of_step {s t : State} (k : Nat) (run : step s = .next t) :
    runSteps (k + 1) s = runSteps k t := by
  rw [runSteps, run]

/-- A step with an issued instruction at the head runs it (R33, R78). -/
theorem step_issue {s : State} {i : Instr} {rest : List HostMove} (wf : i.wf = true)
    (next : s.host = issue i :: rest) : step s = exec i { s with host := rest } :=
  stepRunsDecodedInstr s (encode i) rest i next (decodeOfEncode i wf) wf

/-- A step that takes INIT off the stream has absorbed nothing (R140). -/
theorem step_init {s : State} {rest : List HostMove} (ok : s.fault = .ok) (next : s.host = issue .init :: rest) :
    ∃ t, step s = .next t ∧ Absorbed [] t ∧ t.host = rest ∧ t.responses = s.responses ++ [⟨0, []⟩] :=
  ⟨_, (step_issue rfl next).trans (exec_init_of_ok (s := { s with host := rest }) ok),
    absorbed_startContext (s := { s with host := rest }) ok, rfl, rfl⟩

/-- A step that takes UPDATE off the stream appends its payload to the message absorbed (R141, R144). -/
theorem step_update {m d : List Byte} {s : State} {rest : List HostMove} (absorbed : Absorbed m s)
    (short : (m ++ d).length < 2 ^ 61) (next : s.host = issue (.update d) :: rest) :
    ∃ t, step s = .next t ∧ Absorbed (m ++ d) t ∧ t.host = rest ∧ t.responses = s.responses ++ [⟨0, []⟩] :=
  ⟨_, (step_issue rfl next).trans (exec_update_of_absorbed (s := { s with host := rest }) absorbed short),
    absorbed_absorb (s := { s with host := rest }) absorbed short, absorb_host d _,
    congrArg (· ++ _) (absorb_responses d _)⟩

/-- A step that takes FINALIZE off the stream answers the digest of the message absorbed (R150, R152). -/
theorem step_finalize {m : List Byte} {s : State} {rest : List HostMove} (absorbed : Absorbed m s)
    (next : s.host = issue .finalize :: rest) :
    ∃ t, step s = .next t ∧ t.host = rest ∧ t.phase = .finalized ∧ t.fault = .ok ∧
      t.responses = s.responses ++ [⟨0, sha256 m⟩] :=
  ⟨_, (step_issue rfl next).trans (exec_finalize_of_absorbed (s := { s with host := rest }) absorbed),
    rfl, rfl, absorbed.1.1, rfl⟩

/-- A run of UPDATEs appends the payloads to the message absorbed, one response each (R144), by induction on the chunks. -/
theorem runSteps_updates {chunks : List (List Byte)} {m : List Byte} {s : State} {rest : List HostMove}
    (absorbed : Absorbed m s) (short : (m ++ chunks.flatten).length < 2 ^ 61)
    (next : s.host = updateMoves chunks ++ rest) :
    ∃ t, runSteps chunks.length s = .next t ∧ Absorbed (m ++ chunks.flatten) t ∧ t.host = rest ∧
      t.responses = s.responses ++ List.replicate chunks.length ⟨0, []⟩ := by
  induction chunks generalizing m s with
  | nil => exact ⟨s, rfl, by simpa using absorbed, next, by simp⟩
  | cons d chunks ih =>
    rw [List.flatten_cons, ← List.append_assoc] at short ⊢
    have firstShort : (m ++ d).length < 2 ^ 61 := by rw [List.length_append] at short; omega
    obtain ⟨u, first, uAbsorbed, uHost, uResponses⟩ := step_update absorbed firstShort next
    obtain ⟨t, others, tAbsorbed, tHost, tResponses⟩ := ih uAbsorbed short uHost
    refine ⟨t, (runSteps_succ_of_step _ first).trans others, tAbsorbed, tHost, ?_⟩
    rw [tResponses, uResponses, List.length_cons, List.replicate_succ, List.append_assoc, List.singleton_append]

/-- INIT and UPDATEs absorb the concatenation of the payloads, one response each (R144). -/
theorem runSteps_message {chunks : List (List Byte)} {s : State} {rest : List HostMove} (ok : s.fault = .ok)
    (short : chunks.flatten.length < 2 ^ 61) (next : s.host = issue .init :: (updateMoves chunks ++ rest)) :
    ∃ t, runSteps (chunks.length + 1) s = .next t ∧ Absorbed chunks.flatten t ∧ t.host = rest ∧
      t.responses = s.responses ++ List.replicate (chunks.length + 1) ⟨0, []⟩ := by
  obtain ⟨u, first, uAbsorbed, uHost, uResponses⟩ := step_init ok next
  obtain ⟨t, others, tAbsorbed, tHost, tResponses⟩ := runSteps_updates uAbsorbed short uHost
  refine ⟨t, (runSteps_succ_of_step _ first).trans others, tAbsorbed, tHost, ?_⟩
  rw [tResponses, uResponses, List.replicate_succ, List.append_assoc, List.singleton_append]

/-- Settles O35: the run of `runSteps_message`. -/
theorem updatesAbsorbMessage : Obligations.UpdatesAbsorbMessage := by
  intro s chunks rest ok short next
  obtain ⟨t, run, absorbed, host, -⟩ := runSteps_message ok short next
  exact ⟨t, run, absorbed, host⟩

/-- Settles O36: both runs absorb the same message, which fixes the context and FINALIZE's answer. -/
theorem chunkingDoesNotMatter : Obligations.ChunkingDoesNotMatter := by
  intro s s' chunks chunks' ok ok' same short next next'
  obtain ⟨t, run, absorbed, host, -⟩ := runSteps_message ok short next
  obtain ⟨t', run', absorbed', host', -⟩ := runSteps_message ok' (same ▸ short) next'
  rw [← same] at absorbed'
  obtain ⟨u, last, -, -, -, answer⟩ := step_finalize absorbed host
  obtain ⟨u', last', -, -, -, answer'⟩ := step_finalize absorbed' host'
  obtain ⟨-, holds⟩ := (absorbed_iff short t).mp absorbed
  obtain ⟨-, holds'⟩ := (absorbed_iff short t').mp absorbed'
  obtain ⟨h, total, nstaged, staged⟩ := holds.unique holds'
  exact ⟨t, t', u, u', _, run, run', h, total, nstaged, staged, last, last', answer, answer'⟩

/-- Settles O37: the run of `runSteps_message` and one step more for FINALIZE. -/
theorem sessionAnswersSha256 : Obligations.SessionAnswersSha256 := by
  intro s chunks rest ok short next
  obtain ⟨t, run, absorbed, host, responses⟩ := runSteps_message ok short next
  obtain ⟨u, last, uHost, phase, fault, answer⟩ := step_finalize absorbed host
  refine ⟨u, (runSteps_add 1 run).trans (runSteps_one last), uHost, phase, fault, ?_⟩
  rw [answer, responses]

/-- Settles O38: HASH by O31, and the session of the one chunk by O37. -/
theorem hashEqualsSession : Obligations.HashEqualsSession := by
  intro s s' m ok ok' short next
  have oneChunk : [m].flatten = m := List.flatten_singleton
  obtain ⟨t', run, -, -, -, answer⟩ := sessionAnswersSha256 s' [m] [] ok' (oneChunk.symm ▸ short) next
  rw [oneChunk, List.append_assoc] at answer
  exact ⟨_, t', sha256 m, hashAnswersSha256 s m ok short, ⟨rfl, rfl, rfl, rfl, rfl⟩, rfl, run, answer⟩

end Sys2Proof.Safety
end

section
namespace Sys2Proof.Safety

open Sys2Proof Sys2Proof.Machine

/-! ### The padding and the digest (41_hasher.md R147 to R153) -/

/-- Pad from its second part on. -/
theorem pad_eq (tail : List Byte) (bits : U64) :
    pad tail bits =
      tail ++ (0x80 :: (zeros (64 * padBlocks tail.length - tail.length - 9) ++ be64bytes bits)) := by
  simp [pad]

/-- The number of padding blocks, as R147 words it. -/
theorem eq_padBlocks {n nb : Nat} (one : n ≤ 55 → nb = 1) (two : 56 ≤ n → nb = 2) : nb = padBlocks n := by
  rw [padBlocks]
  split <;> omega

/-- One padding block or two (R147). -/
theorem padBlocks_one_or_two (n : Nat) : padBlocks n = 1 ∨ padBlocks n = 2 := by
  rw [padBlocks]
  split <;> simp

/-- The padding blocks have room for the tail, the marker and the length (R147). -/
theorem padBlocks_room {n : Nat} (below : n ≤ 63) : n + 9 ≤ 64 * padBlocks n := by
  rw [padBlocks]
  split <;> omega

/-- Settles O40: the four parts of Pad, each found at its place. -/
theorem padBytes : Obligations.PadBytes := by
  intro tail bits nb below one two
  obtain rfl : nb = padBlocks tail.length := eq_padBlocks one two
  have room := padBlocks_room below
  refine ⟨pad_length tail bits below, ?_, ?_, fun i afterMarker beforeLength => ?_, ?_⟩
  · rw [pad_eq, List.take_left]
  · rw [pad_eq, List.getD_append_right _ _ _ _ (Nat.le_refl _), Nat.sub_self, List.getD_cons_zero]
  · obtain ⟨j, rfl⟩ := Nat.exists_eq_add_of_lt afterMarker
    have inZeros : j < (zeros (64 * padBlocks tail.length - tail.length - 9)).length := by
      rw [zeros_length]; omega
    rw [pad_eq, List.getD_append_right _ _ _ _ (by omega), Nat.add_assoc, Nat.add_sub_cancel_left,
      List.getD_cons_succ, List.getD_append _ _ _ _ inZeros, List.getD_eq_getElem _ _ inZeros]
    exact List.getElem_replicate _
  · exact List.drop_left' (by simp; omega)

/-- The padded message is its whole blocks and the padding blocks (R150). -/
theorem paddedMessage_length (m : List Byte) :
    (paddedMessage m).length = 64 * (m.length / 64) + 64 * padBlocks (m.length % 64) := by
  have tailLength : (m.drop (64 * (m.length / 64))).length = m.length % 64 := by rw [List.length_drop]; omega
  rw [← take_append_pad, List.length_append, pad_length _ _ (by omega), tailLength, List.length_take]
  omega

/-- Behind its whole blocks the padded message is the padded tail (R150). -/
theorem drop_paddedMessage (m : List Byte) :
    (paddedMessage m).drop (64 * (m.length / 64)) =
      pad (m.drop (64 * (m.length / 64))) (bitLength m.length) := by
  rw [← take_append_pad]
  exact List.drop_left' (by rw [List.length_take]; omega)

/-- Settles O39: both lengths by `paddedMessage_length`, and the tail is the one staged. -/
theorem paddedMessageIsAligned : Obligations.PaddedMessageIsAligned := by
  constructor
  · intro m
    rw [paddedMessage_length]
    omega
  · intro m s _ absorbed
    have length := messageLength_of_absorbed absorbed
    obtain ⟨-, total, nstaged, staged, -⟩ := absorbed
    constructor
    · rw [length, staged, total, drop_paddedMessage]
    · rw [paddedMessage_length, Nat.add_sub_cancel_left, ← nstaged]
      rfl

/-- Byte `4i + j` of big-endian words is byte `j` of word `i` (R50). -/
theorem flatMap_be32bytes_getD {ws : List Word} {i j : Nat} (inWords : i < ws.length) (inWord : j < 4) :
    (ws.flatMap be32bytes).getD (4 * i + j) 0 = (be32bytes (ws.getD i 0)).getD j 0 := by
  induction ws generalizing i with
  | nil => cases inWords
  | cons w ws ih =>
    rw [List.flatMap_cons]
    cases i with
    | zero =>
      rw [Nat.mul_zero, Nat.zero_add, List.getD_cons_zero]
      exact List.getD_append _ _ _ _ inWord
    | succ i =>
      have place : 4 * (i + 1) + j - (be32bytes w).length = 4 * i + j := by rw [be32bytes_length]; omega
      rw [List.getD_append_right _ _ _ _ (by rw [be32bytes_length]; omega), place, List.getD_cons_succ]
      exact ih (Nat.lt_of_succ_lt_succ inWords)

/-- Byte `j` of a word, most significant first (R52). -/
theorem be32bytes_getD (w : Word) {j : Nat} (inWord : j < 4) :
    (be32bytes w).getD j 0 = w.extractLsb' (24 - 8 * j) 8 := by
  interval_cases j <;> rfl

/-- Settles O42: the byte of the words in order, then the byte of the word. -/
theorem digestBytes : Obligations.DigestBytes := by
  intro hs
  refine ⟨digest_length hs, fun i inState j inWord => ?_⟩
  rw [← be32bytes_getD _ inWord]
  exact flatMap_be32bytes_getD inState inWord

end Sys2Proof.Safety
end

section
namespace Sys2Proof.Machine

open Sys2Proof.Safety

/-! ### The padding state machine (41_hasher.md R149) -/

/-- PADBUF after the states that fill it, PF_COPY to PF_LEN (R149). -/
def filledPadbuf (junk : Vector Byte 128) (tail : List Byte) (bits : U64) : Vector Byte 128 :=
  let n := tail.length
  let lengthAt := 64 * padBlocks n - 8
  memWrite (memWrite (memWrite (memWrite junk 0 tail) n [0x80]) (n + 1) (zeros (lengthAt - (n + 1)))) lengthAt
    (be64bytes bits)

/-- The machine after the states that fill PADBUF (R149). -/
theorem padRun_fill (junk : Vector Byte 128) (h : HashState) (tail : List Byte) (bits : U64) :
    padRun 4 (padStart junk h tail bits) =
      { padStart junk h tail bits with
        phase := .blk0, padbuf := filledPadbuf junk tail bits, blocks := padBlocks tail.length } := rfl

/-- A write that goes on where the front part ends lengthens it by the bytes written. -/
theorem memRead_zero_memWrite_of_front {size addr n : Nat} {buf : Vector Byte size} {front v : List Byte}
    (before : memRead buf 0 addr = front) (length : addr + v.length = n) (fits : n ≤ size) :
    memRead (memWrite buf addr v) 0 n = front ++ v := by
  subst length
  rw [memRead_zero_memWrite _ _ _ fits, before]

/-- PADBUF, once filled, starts with the padded data, whatever it held before (R148, R149). -/
theorem memRead_filledPadbuf (junk : Vector Byte 128) {tail : List Byte} (bits : U64) (below : tail.length ≤ 63) :
    memRead (filledPadbuf junk tail bits) 0 (64 * padBlocks tail.length) = pad tail bits := by
  have room := padBlocks_room below
  have oneOrTwo := padBlocks_one_or_two tail.length
  have copied : memRead (memWrite junk 0 tail) 0 tail.length = [] ++ tail :=
    memRead_zero_memWrite_of_front rfl (by omega) (by omega)
  have marked := memRead_zero_memWrite_of_front (v := [0x80]) copied rfl (by simp; omega)
  have zeroed := memRead_zero_memWrite_of_front (v := zeros (64 * padBlocks tail.length - 8 - (tail.length + 1)))
    (n := 64 * padBlocks tail.length - 8) marked (by simp; omega) (by omega)
  have measured := memRead_zero_memWrite_of_front (v := be64bytes bits) (n := 64 * padBlocks tail.length) zeroed
    (by simp; omega) (by omega)
  have zeroCount : 64 * padBlocks tail.length - 8 - (tail.length + 1) =
      64 * padBlocks tail.length - tail.length - 9 := by omega
  rw [filledPadbuf, pad, ← zeroCount]
  exact measured

/-- The bytes from the start up to the end of a read: those before it and those read. -/
theorem memRead_zero_add {size : Nat} (buf : Vector Byte size) (m n : Nat) :
    memRead buf 0 (m + n) = memRead buf 0 m ++ memRead buf m n := by
  rw [memRead_zero, memRead_zero, memRead, List.take_add]

/-- The engine on one block of PADBUF (R116). -/
theorem compressBlocks_memRead_one (h : HashState) (buf : Vector Byte 128) :
    compressBlocks h (memRead buf 0 64) = compressBlock h (memRead buf 0 64) :=
  compressBlocks_block _ _ (memRead_length _ _ _ (by omega))

/-- The engine on both blocks of PADBUF, in order (R116). -/
theorem compressBlocks_memRead_two (h : HashState) (buf : Vector Byte 128) :
    compressBlocks h (memRead buf 0 (64 + 64)) =
      compressBlock (compressBlock h (memRead buf 0 64)) (memRead buf 64 64) := by
  have first : (memRead buf 0 64).length = 64 := memRead_length _ _ _ (by omega)
  have second : (memRead buf 64 64).length = 64 := memRead_length _ _ _ (by omega)
  rw [memRead_zero_add, compressBlocks_append _ _ _ (by omega), compressBlocks_block _ _ first,
    compressBlocks_block _ _ second]

/-- The machine with PADBUF filled: PF_BLK0 and PF_BLK1 compress its blocks, PF_OUT answers the digest, and with one block the third step is idle (R149). -/
theorem padRun_blocks {p : PadMachine} (phase : p.phase = .blk0) (blocks : p.blocks = 1 ∨ p.blocks = 2) :
    padRun 3 p = { p with
      phase := .done, h := compressBlocks p.h (memRead p.padbuf 0 (64 * p.blocks)),
      answer := digest (compressBlocks p.h (memRead p.padbuf 0 (64 * p.blocks))) } := by
  obtain ⟨current, padbuf, nb, tail, bitlen, h, answer⟩ := p
  obtain rfl : current = .blk0 := phase
  rcases blocks with one | two
  · obtain rfl : nb = 1 := one
    simp only [Nat.mul_one, compressBlocks_memRead_one]
    rfl
  · obtain rfl : nb = 2 := two
    simp only [Nat.mul_two, compressBlocks_memRead_two]
    rfl

/-- Settles O41: four steps fill PADBUF with the padded data, and three more compress it and answer. -/
theorem paddingMachineEqualsPad : Obligations.PaddingMachineEqualsPad := by
  intro junk h tail bits below
  have run : padRun 7 (padStart junk h tail bits) = padRun 3 (padRun 4 (padStart junk h tail bits)) := rfl
  rw [run, padRun_fill, padRun_blocks rfl (padBlocks_one_or_two _), ← memRead_filledPadbuf junk bits below]
  exact ⟨rfl, rfl, rfl⟩

end Sys2Proof.Machine
end

section
namespace Sys2Proof.Machine

open Sys2Proof.Safety

/-! ### Steps without a command, and reset (60_exceptions.md R191, R195, R196, 70_reset_and_hazards.md R210, R211) -/

/-- Settles O9: with no move to take, a step is idle. -/
theorem idleCoreHoldsState : Obligations.IdleCoreHoldsState := by
  intro s idle
  rw [step, idle]

/-- A step with a reset at the head takes it (R211). -/
theorem step_reset {s : State} {rest : List HostMove} (next : s.host = .reset :: rest) :
    step s = .next (takeReset { s with host := rest }) := by
  simp only [step, next, takeMove]

/-- Settles O20: the step takes the reset, which closes the context, clears FAULT and answers nothing. -/
theorem resetBetweenCommands : Obligations.ResetBetweenCommands :=
  fun _ _ next => ⟨_, step_reset next, rfl, rfl, rfl, rfl⟩

/-- Each instance of a system starts from the power-on reset that takes its own first draw (R191, R210). -/
theorem systemReset_core (k : Fin Config.numInstances) : System.reset.cores[k] = State.powerOn ⟨k.val, 0⟩ := by
  simp [System.reset]

/-- Settles O54: a core after power-on has PHASE and FAULT at 0 and an empty stream, and its draws carry its instance's number. -/
theorem systemStartsFromReset : Obligations.SystemStartsFromReset := by
  constructor
  · intro k
    rw [systemReset_core]
    refine ⟨rfl, rfl, rfl, fun first => ?_⟩
    rw [first]
    rfl
  · intro j k same
    rw [systemReset_core, systemReset_core] at same
    exact Fin.ext same

/-! ### What fault entry and the checks of the phase write (60_exceptions.md R181, R182, R184) -/

/-- A command that enters a fault writes FAULT and answers, nothing else. -/
theorem CommandEffect.writes_fault_only {c : Command} {s t : State} (effect : CommandEffect c s t)
    (ok : s.fault = .ok) (faulted : t.fault ≠ .ok) :
    t = { s with fault := t.fault, responses := t.responses } := by
  cases effect with
  | answers code data entered => rfl
  | starts isInit => exact absurd ok faulted
  | absorbs d isUpdate isOpen short => exact absurd ((absorb_fault d s).trans ok) faulted
  | finishes isFinalize isOpen => exact absurd ok faulted

/-- In PHASE NONE a command that needs a context enters E_NO_CONTEXT. -/
theorem inContext_of_none {s : State} (phase : s.phase = .none) (effect : Result) :
    inContext s effect = raiseFault .noContext s := by
  simp [inContext, phase]

/-- In PHASE FINALIZED a command that needs a context enters E_FINALIZED. -/
theorem inContext_of_finalized {s : State} (phase : s.phase = .finalized) (effect : Result) :
    inContext s effect = raiseFault .finalized s := by
  simp [inContext, phase]

end Sys2Proof.Machine
end

section
namespace Sys2Proof.Safety

open Sys2Proof Sys2Proof.Machine

/-! ### The sticky fault (60_exceptions.md R185) -/

/-- With FAULT ≠ 0 a step with a command at the head gives the sticky answer, whatever the command. -/
theorem step_of_faulted {s : State} {c : Command} {rest : List HostMove} (faulted : s.fault ≠ .ok)
    (next : s.host = .command c :: rest) : step s = .next (respond s.fault [] { s with host := rest }) := by
  rw [step_command next, accept, unlessFaulted_of_faulted (s := { s with host := rest }) faulted]

/-- Settles O14: neither accepting a command nor running an instruction comes past the look at FAULT. -/
theorem stickyFaultAnswers : Obligations.StickyFaultAnswers :=
  ⟨fun _ _ _ faulted next => step_of_faulted faulted next, fun _ i faulted => exec_of_faulted faulted i⟩

/-- Settles O15, by induction on the commands: the sticky answer to the first leaves the core faulted for the others. -/
theorem faultedCoreIsQuiescent : Obligations.FaultedCoreIsQuiescent := by
  intro s cs rest faulted next
  induction cs generalizing s with
  | nil =>
    obtain rfl : s.host = rest := next
    simp [runSteps]
  | cons c cs ih =>
    have first : step s = .next (respond s.fault [] { s with host := cs.map HostMove.command ++ rest }) :=
      step_of_faulted faulted next
    have others := ih (respond s.fault [] { s with host := cs.map HostMove.command ++ rest }) faulted rfl
    rw [List.length_cons, runSteps_succ_of_step _ first, others]
    simp [List.replicate_succ]

/-! ### Fault entry (60_exceptions.md R184) -/

/-- Settles O13: of the effects of a command only an answer leaves a fault, and the answer to a fault has no data. -/
theorem faultEntryWritesOnlyFault : Obligations.FaultEntryWritesOnlyFault := by
  intro s t c rest ok next run faulted
  rw [step_command next] at run
  have responses := accept_respondsWith run
  rw [RespondsWith, if_neg faulted] at responses
  exact ((accept_effect run).writes_fault_only ok faulted).trans (by rw [responses])

/-! ### The checks of the phase (60_exceptions.md R181, R182) -/

/-- UPDATE and FINALIZE look at FAULT and then at PHASE. -/
theorem exec_eq_inContext {i : Instr} (kind : i = .finalize ∨ ∃ d, i = .update d) (s : State) :
    ∃ effect, exec i s = unlessFaulted s (inContext s effect) := by
  rcases kind with rfl | ⟨d, rfl⟩
  · exact ⟨_, rfl⟩
  · exact ⟨_, rfl⟩

/-- Settles O28: with FAULT = 0 the check of PHASE comes first, and in NONE and FINALIZED it enters a fault. -/
theorem contextNeeded : Obligations.ContextNeeded := by
  intro s i ok kind
  obtain ⟨effect, checks⟩ := exec_eq_inContext kind s
  rw [checks, unlessFaulted_of_ok ok]
  exact ⟨fun phase => inContext_of_none phase effect, fun phase => inContext_of_finalized phase effect⟩

/-! ### The list of checks (60_exceptions.md R183) -/

/-- The commands that need a context decode, with a legal length, to UPDATE and FINALIZE. -/
theorem decode_of_needsContext {c : Command} (needs : NeedsContext c.cmd)
    (length : LegalLength c.cmd c.payload.length) :
    ∃ i, decode c = .command i ∧ (i = .finalize ∨ ∃ d, i = .update d) := by
  rcases needs with word | word
  · exact ⟨_, decode_updateWord word, .inr ⟨_, rfl⟩⟩
  · exact ⟨_, (decode_finalizeWord word).trans (if_pos ((legalLength_noOperand (.inr word) _).mp length)), .inl rfl⟩

/-- Some outcome of the list applies to every command: the first check that holds, or none. -/
theorem exists_firstFault (c : Command) (s : State) : ∃ f, FirstFault c s f := by
  by_cases legal : LegalWord c.cmd
  case neg => exact ⟨_, .inl ⟨rfl, legal⟩⟩
  by_cases length : LegalLength c.cmd c.payload.length
  case neg => exact ⟨_, .inr (.inl ⟨rfl, legal, length⟩)⟩
  by_cases ready : NeedsContext c.cmd → s.phase = .absorbing
  case neg =>
    obtain ⟨needs, notOpen⟩ := Classical.not_imp.mp ready
    cases phase : s.phase with
    | none => exact ⟨_, .inr (.inr (.inl ⟨rfl, legal, length, needs, phase⟩))⟩
    | absorbing => exact absurd phase notOpen
    | finalized => exact ⟨_, .inr (.inr (.inr (.inl ⟨rfl, legal, length, needs, phase⟩)))⟩
  by_cases long : TooLong c s
  · exact ⟨_, .inr (.inr (.inr (.inr (.inl ⟨rfl, legal, length, ready, long⟩))))⟩
  · exact ⟨_, .inr (.inr (.inr (.inr (.inr ⟨rfl, legal, length, ready, long⟩))))⟩

/-- A command that decodes to an instruction leaves the FAULT that running it leaves. -/
theorem accept_fault_of_exec {c : Command} {i : Instr} {s t : State} {f : FaultCode}
    (decoded : decode c = .command i) (run : exec i s = .next t) (fault : t.fault = f) :
    ∃ t, accept c s = .next t ∧ t.fault = f :=
  ⟨t, (accept_of_command decoded s).trans run, fault⟩

section
variable {c : Command} {s : State} (ok : s.fault = .ok)
include ok

/-- With FAULT = 0 a command that fails none of the checks has its effect and leaves FAULT at 0. -/
theorem accept_fault_of_checked (legal : LegalWord c.cmd) (length : LegalLength c.cmd c.payload.length)
    (ready : NeedsContext c.cmd → s.phase = .absorbing) (short : ¬ TooLong c s) :
    ∃ t, accept c s = .next t ∧ t.fault = .ok := by
  rcases legal with word | word | word | word | word
  · have empty := (legalLength_noOperand (.inl word) _).mp length
    exact accept_fault_of_exec ((decode_initWord word).trans (if_pos empty)) (exec_init_of_ok ok) ok
  · have below : messageLength s + c.payload.length < 2 ^ 61 := Nat.lt_of_not_le fun long => short (.inl ⟨word, long⟩)
    exact accept_fault_of_exec (decode_updateWord word) (exec_update_of_short ⟨ok, ready (.inl word)⟩ below)
      ((absorb_fault _ s).trans ok)
  · have empty := (legalLength_noOperand (.inr word) _).mp length
    exact accept_fault_of_exec ((decode_finalizeWord word).trans (if_pos empty))
      (exec_finalize_of_absorbing ⟨ok, ready (.inr word)⟩) ok
  · have below : c.payload.length < 2 ^ 61 := Nat.lt_of_not_le fun long => short (.inr ⟨word, long⟩)
    exact accept_fault_of_exec (decode_hashWord word) (hashAnswersSha256 s _ ok below) ok
  · have whole := (legalLength_compress word _).mp length
    exact accept_fault_of_exec ((decode_compressWord word).trans (if_pos whole))
      (exec_compress_whole _ ok ((wholeBlocks_compressBlockBytes _).trans whole)) ok

/-- With FAULT = 0 a command leaves in FAULT the code that the list of checks gives. -/
theorem accept_fault_of_firstFault {f : FaultCode} (first : FirstFault c s f) :
    ∃ t, accept c s = .next t ∧ t.fault = f := by
  rcases first with ⟨rfl, illegal⟩ | ⟨rfl, legal, badLength⟩ | ⟨rfl, -, length, needs, phase⟩ |
    ⟨rfl, -, length, needs, phase⟩ | ⟨rfl, -, -, ready, long⟩ | ⟨rfl, legal, length, ready, short⟩
  · rw [accept, unlessFaulted_of_ok ok, (decode_eq_illegal_iff c).mpr illegal]
    exact ⟨_, rfl, rfl⟩
  · rw [accept, unlessFaulted_of_ok ok, (decode_of_legalWord legal).2 badLength]
    exact ⟨_, rfl, rfl⟩
  · obtain ⟨i, decoded, kind⟩ := decode_of_needsContext needs length
    exact accept_fault_of_exec decoded ((contextNeeded s i ok kind).1 phase) rfl
  · obtain ⟨i, decoded, kind⟩ := decode_of_needsContext needs length
    exact accept_fault_of_exec decoded ((contextNeeded s i ok kind).2 phase) rfl
  · rcases long with ⟨word, long⟩ | ⟨word, long⟩
    · exact accept_fault_of_exec (decode_updateWord word) (exec_update_of_long ⟨ok, ready (.inl word)⟩ long) rfl
    · exact accept_fault_of_exec (decode_hashWord word) (hashLengthLimit s _ ok long) rfl
  · exact accept_fault_of_checked ok legal length ready short

/-- The list of checks gives one code: the one FAULT has after the command. -/
theorem firstFault_unique {f g : FaultCode} (first : FirstFault c s f) (other : FirstFault c s g) : f = g := by
  obtain ⟨t, run, rfl⟩ := accept_fault_of_firstFault ok first
  obtain ⟨u, run', rfl⟩ := accept_fault_of_firstFault ok other
  rw [run] at run'
  injection run' with same
  rw [same]

end

/-- The list of checks gives code 0 exactly when none of them holds. -/
theorem firstFault_ok_iff (c : Command) (s : State) :
    FirstFault c s .ok ↔ LegalWord c.cmd ∧ LegalLength c.cmd c.payload.length ∧
      (NeedsContext c.cmd → s.phase = .absorbing) ∧ ¬ TooLong c s := by
  simp [FirstFault]

/-- Settles O12: the sticky answer by O14; with FAULT = 0 some code applies, it is the one FAULT takes and so the only one, and code 0 means that the command runs. -/
theorem checksInOrder : Obligations.ChecksInOrder := by
  intro s c rest next
  refine ⟨fun faulted => step_of_faulted faulted next, fun ok => ⟨?_, ?_, ?_⟩⟩
  · obtain ⟨f, first⟩ := exists_firstFault c s
    obtain ⟨t, run, rfl⟩ := accept_fault_of_firstFault (s := { s with host := rest }) ok first
    exact ⟨t, (step_command next).trans run, first⟩
  · exact fun f g => firstFault_unique ok
  · intro first
    obtain ⟨legal, length, -, -⟩ := (firstFault_ok_iff c s).mp first
    obtain ⟨i, decoded⟩ := (decode_of_legalWord legal).1 length
    exact ⟨i, decoded, (step_command next).trans (accept_of_command decoded _)⟩

end Sys2Proof.Safety
end

section
namespace Sys2Proof.Safety

open Sys2Proof Sys2Proof.Machine

/-! ### Reset and the lifecycle grammar (70_reset_and_hazards.md R210, R213) -/

/-- Settles O19: `reset_phase` and `reset_fault`, as bits. -/
theorem resetState : Obligations.ResetState := by
  constructor
  · rw [reset_phase, phaseBits]
  · rw [reset_fault, faultBits]

/-- The instructions the grammar lets a core in phase `p` run, and the phase each leaves when it does not fault (R25, R213). -/
inductive PhaseMove : Phase → Instr → Phase → Prop where
  | init (p : Phase) : PhaseMove p .init .absorbing
  | update (d : List Byte) : PhaseMove .absorbing (.update d) .absorbing
  | finalize : PhaseMove .absorbing .finalize .finalized
  | hash (p : Phase) (m : List Byte) : PhaseMove p (.hash m) p
  | compress (p : Phase) {sin : HashState} {blocks : List Byte} (wf : (Instr.compress sin blocks).wf = true) :
    PhaseMove p (.compress sin blocks) p

theorem PhaseMove.wf {p q : Phase} {i : Instr} (move : PhaseMove p i q) : i.wf = true := by
  cases move with
  | compress p wf => exact wf
  | _ => rfl

/-- Streams of instructions each of which the grammar lets the core run in the phase the ones before it left. -/
inductive LifecycleMoves : Phase → List HostMove → Prop where
  | nil (p : Phase) : LifecycleMoves p []
  | cons {p q : Phase} {i : Instr} {rest : List HostMove} (move : PhaseMove p i q) (others : LifecycleMoves q rest) :
    LifecycleMoves p (issue i :: rest)

/-- `other` runs in every phase and leaves it (R213). -/
theorem lifecycleMoves_other {m : HostMove} (other : OtherMove m) {p : Phase} {rest : List HostMove}
    (follows : LifecycleMoves p rest) : LifecycleMoves p (m :: rest) := by
  rcases other with ⟨message, rfl⟩ | ⟨sin, blocks, rfl, wf⟩
  · exact .cons (.hash p message) follows
  · exact .cons (.compress p wf) follows

theorem lifecycleMoves_others {others : List HostMove} (all : ∀ m ∈ others, OtherMove m) {p : Phase}
    {rest : List HostMove} (follows : LifecycleMoves p rest) : LifecycleMoves p (others ++ rest) := by
  induction others with
  | nil => exact follows
  | cons m others ih =>
    obtain ⟨first, later⟩ := List.forall_mem_cons.mp all
    exact lifecycleMoves_other first (ih later)

/-- `body` keeps an open context open (R213). -/
theorem lifecycleMoves_body {body : List HostMove} (all : BodyMoves body) {rest : List HostMove}
    (follows : LifecycleMoves .absorbing rest) : LifecycleMoves .absorbing (body ++ rest) := by
  induction body with
  | nil => exact follows
  | cons m body ih =>
    obtain ⟨first, later⟩ := List.forall_mem_cons.mp all
    rcases first with ⟨d, rfl⟩ | other
    · exact .cons (.update d) (ih later)
    · exact lifecycleMoves_other other (ih later)

/-- Messages, with other commands between them, may follow in every phase: each starts with INIT (R213). -/
theorem lifecycleMoves_messages {ms : List HostMove} (messages : MessagesMoves ms) (p : Phase) :
    LifecycleMoves p ms := by
  induction messages generalizing p with
  | nil => exact .nil p
  | cons message others _ ih =>
    obtain ⟨body, bodyMoves, rfl | rfl⟩ := message
    · rw [List.cons_append, List.append_assoc]
      exact .cons (.init p) (lifecycleMoves_body bodyMoves (.cons .finalize (lifecycleMoves_others others (ih _))))
    · exact .cons (.init p) (lifecycleMoves_body bodyMoves (lifecycleMoves_others others (ih _)))

/-- With FAULT = 0 an instruction that the grammar lets the core run can only fault with E_LENGTH (R182, R213). -/
theorem exec_phaseMove {q : Phase} {i : Instr} {s : State} (ok : s.fault = .ok) (move : PhaseMove s.phase i q) :
    ∃ t, exec i s = .next t ∧ t.host = s.host ∧ (t.fault = .length ∨ (t.fault = .ok ∧ t.phase = q)) := by
  generalize phase : s.phase = p at move
  cases move with
  | init => exact ⟨_, exec_init_of_ok ok, rfl, .inr ⟨ok, rfl⟩⟩
  | update d =>
    rcases Nat.lt_or_ge (messageLength s + d.length) (2 ^ 61) with short | long
    · exact ⟨_, exec_update_of_short ⟨ok, phase⟩ short, absorb_host d s, .inr (absorbing_absorb ⟨ok, phase⟩ d)⟩
    · exact ⟨_, exec_update_of_long ⟨ok, phase⟩ long, rfl, .inl rfl⟩
  | finalize => exact ⟨_, exec_finalize_of_absorbing ⟨ok, phase⟩, rfl, .inr ⟨ok, rfl⟩⟩
  | hash _ m =>
    rcases Nat.lt_or_ge m.length (2 ^ 61) with short | long
    · exact ⟨_, hashAnswersSha256 s m ok short, rfl, .inr ⟨ok, phase⟩⟩
    · exact ⟨_, hashLengthLimit s m ok long, rfl, .inl rfl⟩
  | compress _ wf => exact ⟨_, exec_compress_whole _ ok wf, rfl, .inr ⟨ok, phase⟩⟩

/-- The core has met no fault and may run its host's stream from its phase, or it holds E_LENGTH and its host goes on with such a stream all the same. -/
def FollowsLifecycle (s : State) : Prop :=
  ∃ p, LifecycleMoves p s.host ∧ (s.fault = .length ∨ (s.fault = .ok ∧ s.phase = p))

/-- A core that follows the grammar steps to one that does: idle, by a command it may run, or by the sticky answer (R185). -/
theorem followsLifecycle_step {s : State} (follows : FollowsLifecycle s) :
    ∃ t, step s = .next t ∧ FollowsLifecycle t := by
  obtain ⟨p, moves, state⟩ := follows
  generalize next : s.host = ms at moves
  cases moves with
  | nil => exact ⟨s, idleCoreHoldsState s next, p, next ▸ .nil p, state⟩
  | @cons _ q i rest move others =>
    rcases state with long | ⟨ok, rfl⟩
    · exact ⟨_, step_of_faulted (by simp [long]) next, q, others, .inl long⟩
    · obtain ⟨t, run, host, outcome⟩ := exec_phaseMove (s := { s with host := rest }) ok move
      exact ⟨t, (step_issue move.wf next).trans run, q, host ▸ others, outcome⟩

theorem followsLifecycle_runSteps (k : Nat) {s : State} (follows : FollowsLifecycle s) :
    ∃ t, runSteps k s = .next t ∧ FollowsLifecycle t := by
  induction k generalizing s with
  | zero => exact ⟨s, rfl, follows⟩
  | succ k ih =>
    obtain ⟨u, first, uFollows⟩ := followsLifecycle_step follows
    obtain ⟨t, others, tFollows⟩ := ih uFollows
    exact ⟨t, (runSteps_succ_of_step k first).trans others, tFollows⟩

/-- Settles O51: the first step takes the reset, and from there the core follows the grammar. -/
theorem lifecycleNeverFaults : Obligations.LifecycleNeverFaults := by
  rintro s moves k ⟨others, messages, rfl, othersAllowed, messagesAllowed⟩ next one -
  obtain ⟨k, rfl⟩ := Nat.exists_eq_add_of_le' one
  have follows : FollowsLifecycle (takeReset { s with host := others ++ messages }) :=
    ⟨.none, lifecycleMoves_others othersAllowed (lifecycleMoves_messages messagesAllowed _), .inr ⟨rfl, rfl⟩⟩
  obtain ⟨t, run, p, -, outcome⟩ := followsLifecycle_runSteps k follows
  exact ⟨t, (runSteps_succ_of_step k (step_reset next)).trans run, outcome.symm.imp_left And.left⟩

end Sys2Proof.Safety
end

section
namespace Sys2Proof.Machine

open Sys2Proof.Safety

/-! ### What a command that does not fault did (60_exceptions.md R183) -/

/-- A command that leaves FAULT at 0 answers a next state with FAULT = 0. -/
theorem exec_of_success {i : Instr} {s : State} (success : faultAfter i s = .ok) :
    ∃ t, exec i s = .next t ∧ t.fault = .ok := by
  obtain ⟨t, run⟩ := exec_answers i s
  simp only [faultAfter, run] at success
  exact ⟨t, run, success⟩

/-- FAULT was 0 before a command that leaves it at 0 (R185). -/
theorem fault_ok_of_success {i : Instr} {s : State} (success : faultAfter i s = .ok) : s.fault = .ok := by
  obtain ⟨t, run, ok⟩ := exec_of_success success
  by_contra faulted
  rw [exec_of_faulted faulted] at run
  injection run with same
  exact faulted (by rw [← ok, ← same, respond_fault])

/-- UPDATE that does not fault absorbs its chunk (R141, R142). -/
theorem exec_update_of_success {d : List Byte} {s : State} (success : faultAfter (.update d) s = .ok) :
    exec (.update d) s = succeed [] (absorb d s) := by
  have ok := fault_ok_of_success success
  obtain ⟨t, run, tOk⟩ := exec_of_success success
  rcases execUpdate_cases run with ⟨faulted, -⟩ | ⟨-, code, rfl, cause⟩ | ⟨-, -, -, rfl⟩
  · exact absurd ok faulted
  · rcases cause with ⟨-, rfl⟩ | ⟨-, rfl⟩ | ⟨-, rfl, -⟩ <;> cases tOk
  · exact run

/-- FINALIZE that does not fault finishes the context (R152). -/
theorem exec_finalize_of_success {s : State} (success : faultAfter .finalize s = .ok) :
    exec .finalize s = succeed (digest (finalHash s)) (finishContext s) := by
  have ok := fault_ok_of_success success
  obtain ⟨t, run, tOk⟩ := exec_of_success success
  rcases execFinalize_cases run with ⟨faulted, -⟩ | ⟨-, code, rfl, cause⟩ | ⟨-, -, rfl⟩
  · exact absurd ok faulted
  · rcases cause with ⟨-, rfl⟩ | ⟨-, rfl⟩ <;> cases tOk
  · exact run

/-- HASH that does not fault answers the digest of its message (R154). -/
theorem exec_hash_of_success {m : List Byte} {s : State} (success : faultAfter (.hash m) s = .ok) :
    exec (.hash m) s = succeed (digest (hashMessage m)) s := by
  have ok := fault_ok_of_success success
  obtain ⟨t, run, tOk⟩ := exec_of_success success
  rcases execHash_cases run with ⟨faulted, -⟩ | ⟨-, -, rfl⟩ | ⟨-, -, rfl⟩
  · exact absurd ok faulted
  · cases tOk
  · exact run

/-- COMPRESS that does not fault has whole blocks (R119). -/
theorem wholeBlocks_of_success {sin : HashState} {blocks : List Byte} {s : State}
    (success : faultAfter (.compress sin blocks) s = .ok) : wholeBlocks blocks = true := by
  have ok := fault_ok_of_success success
  obtain ⟨t, run, tOk⟩ := exec_of_success success
  rcases execCompress_cases run with ⟨faulted, -⟩ | ⟨-, -, rfl⟩ | ⟨-, whole, -⟩
  · exact absurd ok faulted
  · cases tOk
  · exact whole

/-! ### The work of a command (70_reset_and_hazards.md R217) -/

theorem engineCalls_of_fault {i : Instr} {s : State} (faults : faultAfter i s ≠ .ok) : engineCalls i s = 0 :=
  if_neg faults

theorem engineCalls_of_success {i : Instr} {s : State} (success : faultAfter i s = .ok) :
    engineCalls i s = ((engineInputs i s).map fun bytes => bytes.length / 64).sum :=
  if_pos success

/-- INIT hands nothing to the engine, whether it faults or not. -/
theorem engineCalls_init (s : State) : engineCalls .init s = 0 := by
  simp [engineCalls, engineInputs]

/-- COMPRESS calls the engine once for each of its blocks. -/
theorem engineCalls_compress {sin : HashState} {blocks : List Byte} {s : State}
    (success : faultAfter (.compress sin blocks) s = .ok) :
    engineCalls (.compress sin blocks) s = blocks.length / 64 := by
  rw [engineCalls_of_success success]
  simp [engineInputs]

/-- The whole blocks at the front of a byte sequence. -/
theorem wholePart_length (bytes : List Byte) :
    (bytes.take (64 * (bytes.length / 64))).length = 64 * (bytes.length / 64) := by
  rw [List.length_take]
  omega

/-- The padding of the bytes behind the whole blocks is one block or two (R147). -/
theorem pad_rest_length (bytes : List Byte) (bits : U64) :
    (pad (bytes.drop (64 * (bytes.length / 64))) bits).length = 64 * padBlocks (bytes.length % 64) := by
  have restLength : (bytes.drop (64 * (bytes.length / 64))).length = bytes.length % 64 := by
    rw [List.length_drop]; omega
  rw [pad_length _ _ (by omega), restLength]

/-- The padding of the staged bytes is one block or two (R147). -/
theorem pad_stagedBytes_length (s : State) (bits : U64) :
    (pad (stagedBytes s) bits).length = 64 * padBlocks s.nstaged.toNat := by
  have below := s.nstaged.isLt
  rw [pad_length _ _ (by rw [stagedBytes_length]; omega), stagedBytes_length]

/-- UPDATE of a chunk that leaves room in BUF hands nothing to the engine. -/
theorem engineInputs_update_of_fits {d : List Byte} {s : State} (room : s.nstaged.toNat + d.length < 64) :
    engineInputs (.update d) s = [] :=
  if_pos room

/-- UPDATE of a chunk that fills BUF hands over BUF and then the whole blocks of the rest of the chunk. -/
theorem engineInputs_update_of_fills {d : List Byte} {s : State} (full : 64 ≤ s.nstaged.toNat + d.length) :
    engineInputs (.update d) s =
      [memRead (writeBuf s.nstaged.toNat (d.take (64 - s.nstaged.toNat)) s).buf 0 64,
        (d.drop (64 - s.nstaged.toNat)).take (64 * ((d.drop (64 - s.nstaged.toNat)).length / 64))] := by
  have someFits : min d.length (64 - s.nstaged.toNat) = 64 - s.nstaged.toNat := by omega
  simp only [engineInputs, if_neg (Nat.not_lt.mpr full), someFits, writeBuf_buf]

/-- UPDATE calls the engine once for each whole block of the staged bytes and the chunk. -/
theorem engineCalls_update {d : List Byte} {s : State} (success : faultAfter (.update d) s = .ok) :
    engineCalls (.update d) s = (s.nstaged.toNat + d.length) / 64 := by
  rw [engineCalls_of_success success]
  rcases Nat.lt_or_ge (s.nstaged.toNat + d.length) 64 with room | full
  · rw [engineInputs_update_of_fits room, Nat.div_eq_of_lt room]
    rfl
  · have filled := filled_length full
    simp only [engineInputs_update_of_fills full, List.map_cons, List.map_nil, List.sum_cons, List.sum_nil,
      wholePart_length, memRead_length _ 0 64 (Nat.le_refl 64)]
    omega

theorem engineCalls_finalize {s : State} (success : faultAfter .finalize s = .ok) :
    engineCalls .finalize s = padBlocks s.nstaged.toNat := by
  rw [engineCalls_of_success success]
  simp [engineInputs, pad_stagedBytes_length]

theorem engineCalls_hash {m : List Byte} {s : State} (success : faultAfter (.hash m) s = .ok) :
    engineCalls (.hash m) s = m.length / 64 + padBlocks (m.length % 64) := by
  rw [engineCalls_of_success success]
  simp only [engineInputs, List.map_cons, List.map_nil, List.sum_cons, List.sum_nil, wholePart_length, pad_rest_length]
  omega

/-- What a command that does not fault hands to the engine is whole blocks (R116). -/
theorem engineInputs_whole {i : Instr} {s : State} (success : faultAfter i s = .ok) {bytes : List Byte}
    (input : bytes ∈ engineInputs i s) : bytes.length % 64 = 0 := by
  cases i with
  | init => cases input
  | update d =>
    rcases Nat.lt_or_ge (s.nstaged.toNat + d.length) 64 with room | full
    · rw [engineInputs_update_of_fits room] at input
      cases input
    · rw [engineInputs_update_of_fills full, List.mem_pair] at input
      rcases input with rfl | rfl
      · rw [memRead_length _ 0 64 (Nat.le_refl 64)]
      · rw [wholePart_length, Nat.mul_mod_right]
  | finalize =>
    obtain rfl := List.mem_singleton.mp input
    rw [pad_stagedBytes_length, Nat.mul_mod_right]
  | hash m =>
    rcases List.mem_pair.mp input with rfl | rfl
    · rw [wholePart_length, Nat.mul_mod_right]
    · rw [pad_rest_length, Nat.mul_mod_right]
  | compress sin blocks =>
    obtain rfl := List.mem_singleton.mp input
    obtain ⟨-, multiple⟩ := (wholeBlocks_iff bytes).mp (wholeBlocks_of_success success)
    exact multiple

/-- H after UPDATE is the engine's on what UPDATE hands to it (R141 steps c and d). -/
theorem absorb_h_engineInputs (d : List Byte) (s : State) :
    (absorb d s).h = (engineInputs (.update d) s).foldl compressBlocks s.h := by
  rcases Nat.lt_or_ge (s.nstaged.toNat + d.length) 64 with room | full
  · rw [absorb_of_fits room, engineInputs_update_of_fits room]
    rfl
  · rw [absorb_of_fills full, engineInputs_update_of_fills full]
    rfl

/-- Settles O57: the counts from the lengths of the inputs, and H and the answers from what a command that does not fault did. -/
theorem engineCallsPerCommand : Obligations.EngineCallsPerCommand := by
  intro s
  refine ⟨fun i => engineCalls_of_fault, engineCalls_init s, fun d success => ?_, engineCalls_finalize,
    fun m => engineCalls_hash, fun sin blocks => engineCalls_compress,
    fun i success bytes => engineInputs_whole success, fun i success kind => ?_,
    fun m success => ⟨_, exec_hash_of_success success, rfl⟩,
    fun sin blocks success => ⟨_, exec_compress_whole sin (fault_ok_of_success success)
      (wholeBlocks_of_success success), rfl⟩⟩
  · rw [engineCalls_update success]
    split
    · exact Nat.div_eq_of_lt ‹_›
    · rfl
  · rcases kind with rfl | rfl | ⟨d, rfl⟩
    · exact ⟨_, exec_init_of_ok (fault_ok_of_success success), rfl⟩
    · exact ⟨_, exec_finalize_of_success success, rfl⟩
    · exact ⟨_, exec_update_of_success success, absorb_h_engineInputs d s⟩

end Sys2Proof.Machine
end

section
namespace Sys2Proof.Machine

/-! ### Moves without an outcome (60_exceptions.md R196, 70_reset_and_hazards.md R211, U8, U12) -/

/-- A step with a move at the head of the host's stream takes that move off it and answers it. -/
theorem step_of_move {s : State} {move : HostMove} {rest : List HostMove} (next : s.host = move :: rest) :
    step s = takeMove move { s with host := rest } := by
  rw [step, next]

/-- A reset inside a command is answered by the fault of that name, from every state (log entry 7). -/
@[simp] theorem takeMove_resetDuring (c : Command) (s : State) :
    takeMove (.resetDuring c) s = .fault .resetDuringCommand := rfl

/-- Overlapping commands are answered by the refusal of that name, from every state (log entry 8). -/
@[simp] theorem takeMove_overlap (c d : Command) (s : State) :
    takeMove (.overlap c d) s = .refused .overlappingCommands := rfl

/-- Settles O10: the step answers the move at the head, and the answer to each of the two is its stop. -/
theorem movesWithoutOutcomeStop : Obligations.MovesWithoutOutcomeStop := by
  constructor
  · intro s c rest next
    rw [step_of_move next, takeMove_resetDuring]
  · intro s c d rest next
    rw [step_of_move next, takeMove_overlap]

end Sys2Proof.Machine
end
